-- ==== Sys2Proof/Word.lean ====
section
/-! DEFINITION. The instruction word (R60) and the slicing notation of R6 and R7. -/

namespace Sys2Proof

/-- One 32-bit instruction word, bit 31 the most significant (R6, R60). -/
abbrev Word := BitVec 32

/-- `w[hi:lo]` of R6: the bits `hi` down to `lo`, read as an unsigned number of `hi - lo + 1` bits. -/
abbrev Word.slice (w : Word) (hi lo : Nat) : BitVec (hi - lo + 1) := w.extractLsb hi lo

/-- `w[i]` of R6. -/
abbrev Word.bit (w : Word) (i : Nat) : Bool := w.getLsbD i

end Sys2Proof
end

