-- ==== Sys2Proof/Config.lean ====
section
/-! DEFINITION. The names of opcodes, operators and operand kinds, the configuration of 00_scope.md R5 that
is fixed for the machine, with the laws of `alu` (R130) and the spec's defaults, the shape of the
operand-memory port (R38 to R42), and what nothing in Lean can evaluate: what a host storage answers (R51),
and an `alu` of laws the spec does not name (U15). -/

namespace Sys2Proof

/-- A data value of `w` bits: accumulator, partial accumulator, value on the operand-memory port (R8,
R20). -/
abbrev Value (w : Nat) := BitVec w

/-- The thirty-two entries of the opcode table, by name (R76, R93). -/
inductive Opcode where
  | ld | st | s | r
  | and | or | xor | not
  | add | sub | mul | div
  | gt | ge | eq | ne | le | lt
  | jmp | cal | halt
  | res21 | res22 | res23 | res24 | res25 | res26 | res27 | res28 | res29 | res30 | res31
  deriving DecidableEq, Repr

/-- The thirteen two-operand operators, the only ones a frame of the evaluation stack can hold (R27, R108). -/
inductive TwoOp where
  | and | or | xor
  | add | sub | mul | div
  | gt | ge | eq | ne | le | lt
  deriving DecidableEq, Repr

/-- The opcode that names the operator (R27: "`op` is the 5-bit opcode number of the pending operator"). -/
def TwoOp.opcode : TwoOp → Opcode
  | .and => .and | .or => .or | .xor => .xor
  | .add => .add | .sub => .sub | .mul => .mul | .div => .div
  | .gt => .gt | .ge => .ge | .eq => .eq | .ne => .ne | .le => .le | .lt => .lt

/-- The eleven reserved opcodes, the values `CLOSE_OPCODE` may take (R77, R115). -/
inductive Reserved where
  | res21 | res22 | res23 | res24 | res25 | res26 | res27 | res28 | res29 | res30 | res31
  deriving DecidableEq, Repr

/-- The table entry a reserved opcode is. -/
def Reserved.opcode : Reserved → Opcode
  | .res21 => .res21 | .res22 => .res22 | .res23 => .res23 | .res24 => .res24
  | .res25 => .res25 | .res26 => .res26 | .res27 => .res27 | .res28 => .res28
  | .res29 => .res29 | .res30 => .res30 | .res31 => .res31

/-- The seventeen operand kinds, by the words of R43's table. -/
inductive OperandKind where
  | digitalInput | analogInput | fallingEdge | risingEdge | digitalMemory | analogMemory
  | commandTimer | blinkOutput | timeout | digitalOutput | analogOutput | contact
  | analogContact | start | pulseIn | analogMemIn | write
  deriving DecidableEq, Repr

/-- The twenty-one defined opcodes, in the order of the spec's default numbering (R76, decision D1). -/
def Opcode.defined : List Opcode :=
  [.ld, .st, .s, .r, .and, .or, .xor, .not, .add, .sub, .mul, .div,
    .gt, .ge, .eq, .ne, .le, .lt, .jmp, .cal, .halt]

/-- Every operand kind, in the order of R43's table, the spec's default numbering (decision D3). -/
def OperandKind.all : List OperandKind :=
  [.digitalInput, .analogInput, .fallingEdge, .risingEdge, .digitalMemory, .analogMemory,
    .commandTimer, .blinkOutput, .timeout, .digitalOutput, .analogOutput, .contact,
    .analogContact, .start, .pulseIn, .analogMemIn, .write]

/-- AND, OR and XOR: on truth values (decision D9), or bit by bit, the alternative D9 sets aside. -/
inductive LogicLaw where
  | logical | bitwise
  deriving DecidableEq, Repr

/-- A result outside the signed range: reduced modulo `2^VW` (decision D10), or replaced by the nearest
value of the range, an alternative D10 sets aside. -/
inductive OverflowLaw where
  | wrapping | saturating
  deriving DecidableEq, Repr

/-- An inexact quotient: rounded toward zero (decision D10), or downward, an alternative D10 sets aside. -/
inductive RoundingLaw where
  | truncated | floored
  deriving DecidableEq, Repr

/-- The order of GT, GE, LE, LT: signed (decision D11), or unsigned, the alternative D11 sets aside. -/
inductive OrderLaw where
  | signed | unsigned
  deriving DecidableEq, Repr

/-- The parameter `alu` (R130, U15): the laws of the two-operand function, as plain data. `other` stands
for any function besides the named ones (log entry 7). -/
inductive AluLaws where
  | laws (logic : LogicLaw) (overflow : OverflowLaw) (rounding : RoundingLaw) (order : OrderLaw)
  | other (tag : Nat)
  deriving DecidableEq, Repr

/-- The spec's default laws (R108, R130; decisions D9 to D11). -/
def AluLaws.default : AluLaws := .laws .logical .wrapping .truncated .signed

/-- A byte order of the four bytes of an instruction word: the places of the bytes of a word in the order
in which a serialised program has them, place 0 the least significant (R46). -/
abbrev ByteOrder := List (Fin 4)

/-- The most significant byte first. -/
def ByteOrder.bigEndian : ByteOrder := [3, 2, 1, 0]

/-- The least significant byte first. -/
def ByteOrder.littleEndian : ByteOrder := [0, 1, 2, 3]

/-- What a configuration has to meet: a value has at least one bit, so that true and false differ (R21,
log entry 18); `opc` and `kind` list every defined opcode and every kind once, and the byte order every
byte of a word. One bit is admitted, where R140's sentence on booleans and its pseudocode differ (log entry
19). -/
def Params.valid (vw : Nat) (opc : List Opcode) (kind : List OperandKind) (blobOrder : ByteOrder) : Bool :=
  decide (0 < vw) && Opcode.defined.isPerm opc && OperandKind.all.isPerm kind &&
    ByteOrder.littleEndian.isPerm blobOrder

/-- The configuration of R5 that is fixed for the machine (R14): no step changes it. -/
structure Params where
  /-- `VW`, the width in bits of a data value (R20). -/
  vw : Nat
  /-- `OPC`: the defined opcodes in the order of their numbers 0 to 20 (R76). -/
  opc : List Opcode
  /-- `KIND`: the operand kinds in the order of their numbers 0 to 16 (R43). The engine never reads it
  (R44); the texts of 30_encoding.md do. -/
  kind : List OperandKind
  /-- The function `alu` (R130, U15). -/
  alu : AluLaws
  /-- `ES_DEPTH`: the frames the evaluation stack can hold, `none` for any number (R27, U13). -/
  esDepth : Option Nat
  /-- `BLOB_ORDER` (R46, U14). The engine never sees it; a loader does. -/
  blobOrder : ByteOrder
  /-- The configuration is a legal one. -/
  ok : Params.valid vw opc kind blobOrder = true
  deriving DecidableEq, Repr

/-- The defaults the spec takes (R5; decisions D1, D3, D6, D9 to D11, D14). `BLOB_ORDER` has none: the most
significant byte first is the model's choice (log entry 9). -/
def Params.default : Params where
  vw := 16
  opc := Opcode.defined
  kind := OperandKind.all
  alu := .default
  esDepth := none
  blobOrder := .bigEndian
  ok := by decide

/-- The operand key of R40: the kind as the raw 5-bit number (17 to 31 are forwarded, R44), the mode
(the `word` flag) and the 16-bit address. -/
structure Key where
  kind : BitVec 5
  word : Bool
  addr : BitVec 16
  deriving DecidableEq, Repr

/-- One access on the operand-memory port (R38): a `MemRead` with the value it returned, or a
`MemWrite` with the value handed over. The nominal width is a function of the key (R40). -/
inductive PortEvent (w : Nat) where
  | read (key : Key) (value : Value w)
  | write (key : Key) (value : Value w)
  deriving DecidableEq, Repr

/-- FREE VALUE (log entry 6). What a host storage that is not the reference memory answers to a
`MemRead` (R51: "any `VW`-bit value may come back"), after the accesses `history` it has had, newest
first. `tag` stands for all that the storage held before them. Nothing constrains it. -/
opaque Config.hostRead (w : Nat) (tag : Nat) (history : List (PortEvent w)) (key : Key) : Value w

/-- FREE FUNCTION (log entry 7). The result of an operator under laws the spec does not name (U15), as the
configuration's `tag` has it; DIV is asked for a divisor other than 0 alone. Nothing constrains it. -/
opaque Config.otherAlu (w : Nat) (tag : Nat) (op : TwoOp) (a x : Value w) : Value w

end Sys2Proof
end

