-- ==== Sys2Proof/Machine/Numbering.lean ====
section
/-! DEFINITION. What the numbering parameters `OPC` and `KIND` of a configuration say (00_scope.md R5, R76,
R43). Everything else goes by name: another numbering changes a value of `Params` and nothing besides. -/

namespace Sys2Proof

/-- The reserved opcodes, in the order of their numbers 21 to 31 (R77). -/
def Reserved.all : List Reserved :=
  [.res21, .res22, .res23, .res24, .res25, .res26, .res27, .res28, .res29, .res30, .res31]

/-- The number of a reserved opcode, the same in every configuration (R5: "21 to 31"). -/
def Reserved.number : Reserved → BitVec 5
  | .res21 => 21 | .res22 => 22 | .res23 => 23 | .res24 => 24 | .res25 => 25 | .res26 => 26
  | .res27 => 27 | .res28 => 28 | .res29 => 29 | .res30 => 30 | .res31 => 31

/-- The reserved opcode an entry of the opcode table is, `none` for the twenty-one defined ones. -/
def Opcode.reserved? (o : Opcode) : Option Reserved :=
  Reserved.all.find? (fun r => r.opcode == o)

/-- The reserved opcode of a number of 21 to 31; `res31` is only the formal default for a lower one. -/
def Reserved.ofNumber (n : BitVec 5) : Reserved :=
  (Reserved.all.find? (fun r => r.number == n)).getD .res31

/-- `OPC`: the 5-bit number of an opcode (R76). -/
def Params.number (p : Params) (o : Opcode) : BitVec 5 :=
  match o.reserved? with
  | some r => r.number
  | none => BitVec.ofNat 5 (p.opc.idxOf o)

/-- The table entry a 5-bit number selects (R76, R105): one of the twenty-one defined opcodes for 0 to 20,
a reserved one for 21 to 31 (R77). -/
def Params.opcode (p : Params) (n : BitVec 5) : Opcode :=
  match p.opc[n.toNat]? with
  | some o => o
  | none => (Reserved.ofNumber n).opcode

/-- `is_jump` of R61: the number is that of JMP or of CAL, so the word has format J. -/
def isJump (p : Params) (n : BitVec 5) : Bool :=
  n == p.number .jmp || n == p.number .cal

/-- `KIND`: the number of an operand kind (R43). -/
def Params.kindNumber (p : Params) (k : OperandKind) : BitVec 5 := BitVec.ofNat 5 (p.kind.idxOf k)

/-- The kind a 5-bit number names; `none` for the undefined numbers 17 to 31 (R44, R78). -/
def Params.kindOf (p : Params) (n : BitVec 5) : Option OperandKind := p.kind[n.toNat]?

end Sys2Proof
end

