-- ==== Sys2Proof/Syntax.lean ====
section
/-! DEFINITION. The instructions: the two field records of 30_encoding.md R67 without their opcode, and
one constructor per row of spec/opcode_table.json. -/

namespace Sys2Proof

/-- The fields of format O below the opcode (R62, R67). With `word` set, `byte` and `bit` are the two
halves of `word_value` (R65). -/
structure OFields where
  cond : Bool
  negateInstr : Bool
  push : Bool
  ret : Bool
  word : Bool
  negateArg : Bool
  kind : BitVec 5
  byte : BitVec 8
  bit : BitVec 8
  deriving DecidableEq, Repr

/-- The fields of format J below the opcode (R63, R67). -/
structure JFields where
  cond : Bool
  negateInstr : Bool
  target : BitVec 25
  deriving DecidableEq, Repr

/-- One instruction, with every field its word carries (R76, R77). -/
inductive Instr where
  /-- LD, load (R120). -/
  | ld (f : OFields)
  /-- ST, store (R121). -/
  | st (f : OFields)
  /-- S, set (R122). -/
  | s (f : OFields)
  /-- R, reset an operand (R123). -/
  | r (f : OFields)
  /-- AND (R125). -/
  | and (f : OFields)
  /-- OR (R126). -/
  | or (f : OFields)
  /-- XOR (R127). -/
  | xor (f : OFields)
  /-- NOT (R128); its fields are all ignored. -/
  | not (f : OFields)
  /-- ADD (R131). -/
  | add (f : OFields)
  /-- SUB (R132). -/
  | sub (f : OFields)
  /-- MUL (R133). -/
  | mul (f : OFields)
  /-- DIV (R134). -/
  | div (f : OFields)
  /-- GT (R141). -/
  | gt (f : OFields)
  /-- GE (R142). -/
  | ge (f : OFields)
  /-- EQ (R143). -/
  | eq (f : OFields)
  /-- NE (R144). -/
  | ne (f : OFields)
  /-- LE (R145). -/
  | le (f : OFields)
  /-- LT (R146). -/
  | lt (f : OFields)
  /-- JMP (R151). -/
  | jmp (f : JFields)
  /-- CAL (R152). -/
  | cal (f : JFields)
  /-- HALT (R153); its fields are all ignored. -/
  | halt (f : OFields)
  /-- RES21, reserved (R154), or the close instruction when configured (R115). -/
  | res21 (f : OFields)
  /-- RES22, reserved (R154), or the close instruction when configured (R115). -/
  | res22 (f : OFields)
  /-- RES23, reserved (R154), or the close instruction when configured (R115). -/
  | res23 (f : OFields)
  /-- RES24, reserved (R154), or the close instruction when configured (R115). -/
  | res24 (f : OFields)
  /-- RES25, reserved (R154), or the close instruction when configured (R115). -/
  | res25 (f : OFields)
  /-- RES26, reserved (R154), or the close instruction when configured (R115). -/
  | res26 (f : OFields)
  /-- RES27, reserved (R154), or the close instruction when configured (R115). -/
  | res27 (f : OFields)
  /-- RES28, reserved (R154), or the close instruction when configured (R115). -/
  | res28 (f : OFields)
  /-- RES29, reserved (R154), or the close instruction when configured (R115). -/
  | res29 (f : OFields)
  /-- RES30, reserved (R154), or the close instruction when configured (R115). -/
  | res30 (f : OFields)
  /-- RES31, reserved (R154), or the close instruction when configured (R115). -/
  | res31 (f : OFields)
  deriving DecidableEq, Repr

/-- The opcode of an instruction (R76). -/
def Instr.opcode : Instr → Opcode
  | .ld _ => .ld
  | .st _ => .st
  | .s _ => .s
  | .r _ => .r
  | .and _ => .and
  | .or _ => .or
  | .xor _ => .xor
  | .not _ => .not
  | .add _ => .add
  | .sub _ => .sub
  | .mul _ => .mul
  | .div _ => .div
  | .gt _ => .gt
  | .ge _ => .ge
  | .eq _ => .eq
  | .ne _ => .ne
  | .le _ => .le
  | .lt _ => .lt
  | .jmp _ => .jmp
  | .cal _ => .cal
  | .halt _ => .halt
  | .res21 _ => .res21
  | .res22 _ => .res22
  | .res23 _ => .res23
  | .res24 _ => .res24
  | .res25 _ => .res25
  | .res26 _ => .res26
  | .res27 _ => .res27
  | .res28 _ => .res28
  | .res29 _ => .res29
  | .res30 _ => .res30
  | .res31 _ => .res31

end Sys2Proof
end

