-- ==== Sys2Proof/WellFormed.lean ====
section
/-! DEFINITION. The codec's decoded record (R67) with the check that its tag agrees with its opcode, the
validity predicate of R75, and the "plain" form of an instruction: every field that R79's table marks as
ignored set to 0 (R113; the cautious check of U2 and U4 is `plain i = i`). -/

namespace Sys2Proof

/-- The decoded form of a word: `FieldsO` or `FieldsJ` of R67, each with its opcode number. -/
inductive Fields where
  | o (opcode : BitVec 5) (f : OFields)
  | j (opcode : BitVec 5) (f : JFields)
  deriving DecidableEq, Repr

/-- The opcode number of a record. -/
def Fields.opcode : Fields → BitVec 5
  | .o n _ => n
  | .j n _ => n

/-- R67's tag condition: a `FieldsO` has no jump opcode and a `FieldsJ` has one. The widths are enforced
by the types (R70). -/
def Fields.wf (p : Params) : Fields → Bool
  | .o n _ => !isJump p n
  | .j n _ => isJump p n

/-- The record of an instruction (R67). -/
def Instr.fields (p : Params) (i : Instr) : Fields :=
  match i with
  | .jmp f | .cal f => .j (p.number i.opcode) f
  | .ld f | .st f | .s f | .r f | .and f | .or f | .xor f | .not f
  | .add f | .sub f | .mul f | .div f | .gt f | .ge f | .eq f | .ne f | .le f | .lt f | .halt f
  | .res21 f | .res22 f | .res23 f | .res24 f | .res25 f | .res26 f
  | .res27 f | .res28 f | .res29 f | .res30 f | .res31 f => .o (p.number i.opcode) f

/-- Whether the engine reads the operand key of an instruction with this opcode (R79, the column
`word`, `operand_kind`, `byte`, `bit`). -/
def Opcode.usesOperand : Opcode → Bool
  | .not | .jmp | .cal | .halt => false
  | .res21 | .res22 | .res23 | .res24 | .res25 | .res26 => false
  | .res27 | .res28 | .res29 | .res30 | .res31 => false
  | .ld | .st | .s | .r | .and | .or | .xor => true
  | .add | .sub | .mul | .div | .gt | .ge | .eq | .ne | .le | .lt => true

/-- R75's validity predicate for callers (no check of the codec or the engine): the opcode is one of 0 to
20 and, where the operand is used, the kind is one of 0 to 16. -/
def Fields.isDefined (p : Params) : Fields → Bool
  | .o n f => decide (n.toNat ≤ 20) && (!(p.opcode n).usesOperand || decide (f.kind.toNat ≤ 16))
  | .j n _ => decide (n.toNat ≤ 20)

/-- The fields of LD and ST that the engine reads; the rest 0 (R79). -/
def OFields.plainAccess (f : OFields) : OFields :=
  { f with cond := false, negateInstr := false, push := false, ret := false }

/-- The fields of S and R that the engine reads; the rest 0 (R79). -/
def OFields.plainSet (f : OFields) : OFields :=
  { f with cond := false, negateInstr := false, push := false, ret := false, negateArg := false }

/-- The fields of a two-operand instruction that the engine reads; the rest 0 (R79). -/
def OFields.plainTwoOp (f : OFields) : OFields :=
  { f with cond := false, negateInstr := false, ret := false }

/-- All fields 0: NOT, HALT and the reserved opcodes read none (R79). -/
def OFields.zero : OFields :=
  ⟨false, false, false, false, false, false, 0, 0, 0⟩

/-- The fields of JMP and CAL that the engine reads: `negate_instr` only when `cond` = 1 (R79). -/
def JFields.plain (f : JFields) : JFields :=
  { f with negateInstr := f.cond && f.negateInstr }

/-- The instruction with every field 0 that R79's table marks as ignored for its opcode. -/
def Instr.plain : Instr → Instr
  | .ld f => .ld f.plainAccess
  | .st f => .st f.plainAccess
  | .s f => .s f.plainSet
  | .r f => .r f.plainSet
  | .and f => .and f.plainTwoOp
  | .or f => .or f.plainTwoOp
  | .xor f => .xor f.plainTwoOp
  | .not _ => .not .zero
  | .add f => .add f.plainTwoOp
  | .sub f => .sub f.plainTwoOp
  | .mul f => .mul f.plainTwoOp
  | .div f => .div f.plainTwoOp
  | .gt f => .gt f.plainTwoOp
  | .ge f => .ge f.plainTwoOp
  | .eq f => .eq f.plainTwoOp
  | .ne f => .ne f.plainTwoOp
  | .le f => .le f.plainTwoOp
  | .lt f => .lt f.plainTwoOp
  | .jmp f => .jmp f.plain
  | .cal f => .cal f.plain
  | .halt _ => .halt .zero
  | .res21 _ => .res21 .zero
  | .res22 _ => .res22 .zero
  | .res23 _ => .res23 .zero
  | .res24 _ => .res24 .zero
  | .res25 _ => .res25 .zero
  | .res26 _ => .res26 .zero
  | .res27 _ => .res27 .zero
  | .res28 _ => .res28 .zero
  | .res29 _ => .res29 .zero
  | .res30 _ => .res30 .zero
  | .res31 _ => .res31 .zero

end Sys2Proof
end

