-- ==== Sys2Proof/Decode.lean ====
section
/-! DEFINITION. The instruction codec (30_encoding.md): the raw field functions (R64), `decode` (R71),
`encode` (R68, R69), both total (R70, R72), and the selection of the instruction by its opcode (R76). -/

namespace Sys2Proof

/-- `opcode(w)` of R64. -/
def opcodeBits (w : Word) : BitVec 5 := w.slice 31 27

/-- `operand_kind(w)` of R64. -/
def kindBits (w : Word) : BitVec 5 := w.slice 20 16

/-- `byte(w)` of R64. -/
def byteBits (w : Word) : BitVec 8 := w.slice 15 8

/-- `bit(w)` of R64. -/
def bitBits (w : Word) : BitVec 8 := w.slice 7 0

/-- `word_value(w)` of R64, R65. -/
def wordValueBits (w : Word) : BitVec 16 := w.slice 15 0

/-- `jump_target(w)` of R64, R66. -/
def jumpTargetBits (w : Word) : BitVec 25 := w.slice 24 0

/-- The format-O fields of a word (R62, R64). -/
def oFields (w : Word) : OFields where
  cond := w.bit 26
  negateInstr := w.bit 25
  push := w.bit 24
  ret := w.bit 23
  word := w.bit 22
  negateArg := w.bit 21
  kind := kindBits w
  byte := byteBits w
  bit := bitBits w

/-- The format-J fields of a word (R63, R64). -/
def jFields (w : Word) : JFields where
  cond := w.bit 26
  negateInstr := w.bit 25
  target := jumpTargetBits w

/-- The codec's `decode` (R71). -/
def decodeFields (p : Params) (w : Word) : Fields :=
  if isJump p (opcodeBits w) then .j (opcodeBits w) (jFields w) else .o (opcodeBits w) (oFields w)

/-- A field of `n` bits at position `lo` of the word. -/
def placeBits {n : Nat} (b : BitVec n) (lo : Nat) : Word := b.setWidth 32 <<< lo

/-- A flag at position `lo` of the word. -/
def placeFlag (b : Bool) (lo : Nat) : Word := placeBits (BitVec.ofBool b) lo

/-- The codec's `encode` (R68 for format O, R69 for format J). -/
def encodeFields : Fields → Word
  | .o n f =>
    placeBits n 27 ||| placeFlag f.cond 26 ||| placeFlag f.negateInstr 25 ||| placeFlag f.push 24 |||
    placeFlag f.ret 23 ||| placeFlag f.word 22 ||| placeFlag f.negateArg 21 ||| placeBits f.kind 16 |||
    placeBits f.byte 8 ||| placeBits f.bit 0
  | .j n f =>
    placeBits n 27 ||| placeFlag f.cond 26 ||| placeFlag f.negateInstr 25 ||| placeBits f.target 0

/-- The instruction an opcode and a word's fields make (R76: the opcode alone selects it). -/
def instrOf (o : Opcode) (w : Word) : Instr :=
  match o with
  | .ld => .ld (oFields w)
  | .st => .st (oFields w)
  | .s => .s (oFields w)
  | .r => .r (oFields w)
  | .and => .and (oFields w)
  | .or => .or (oFields w)
  | .xor => .xor (oFields w)
  | .not => .not (oFields w)
  | .add => .add (oFields w)
  | .sub => .sub (oFields w)
  | .mul => .mul (oFields w)
  | .div => .div (oFields w)
  | .gt => .gt (oFields w)
  | .ge => .ge (oFields w)
  | .eq => .eq (oFields w)
  | .ne => .ne (oFields w)
  | .le => .le (oFields w)
  | .lt => .lt (oFields w)
  | .jmp => .jmp (jFields w)
  | .cal => .cal (jFields w)
  | .halt => .halt (oFields w)
  | .res21 => .res21 (oFields w)
  | .res22 => .res22 (oFields w)
  | .res23 => .res23 (oFields w)
  | .res24 => .res24 (oFields w)
  | .res25 => .res25 (oFields w)
  | .res26 => .res26 (oFields w)
  | .res27 => .res27 (oFields w)
  | .res28 => .res28 (oFields w)
  | .res29 => .res29 (oFields w)
  | .res30 => .res30 (oFields w)
  | .res31 => .res31 (oFields w)

/-- The instruction a word stands for. Total over all 2^32 words (R72). -/
def decode (p : Params) (w : Word) : Instr := instrOf (p.opcode (opcodeBits w)) w

/-- The word of an instruction (R68, R69). -/
def encode (p : Params) (i : Instr) : Word := encodeFields (i.fields p)

/-- The host's interface: the instruction whose bits are `w`, numbered as spec/opcode_table.json numbers
them (bit 0 the least significant of the one 32-bit word), at the default numbering, which is the
table's. Bits at and above `nbits` are 0. -/
def decodeTableWord (nbits w : Nat) : Option Instr :=
  some (decode Params.default (BitVec.ofNat 32 (w % 2 ^ nbits)))

end Sys2Proof
end

