-- ==== Sys2Proof/Machine/Flags.lean ====
section
/-! DEFINITION. The boolean reading of values (R21 to R24) and the one condition the machine can test, that
of a transfer (R150). There are no flags and no condition codes (R26). -/

namespace Sys2Proof.Machine

/-- `truth(v)`: any non-zero value is true (R22). -/
def truth {w : Nat} (v : Value w) : Bool := v != 0

/-- `b2v(b)`: true is 1, false is 0 (R21, R23). -/
def b2v {w : Nat} (b : Bool) : Value w := if b then 1 else 0

/-- `neg(v)`: the boolean negation, 1 for 0 and 0 for every other value (R24). -/
def neg {w : Nat} (v : Value w) : Value w := b2v (!truth v)

/-- A value as `negate_arg` leaves it: negated when the flag is set (R106, R107, R121). -/
def negIf {w : Nat} (flag : Bool) (v : Value w) : Value w := if flag then neg v else v

/-- Whether JMP or CAL transfers, for accumulator `acc` (R150). -/
def taken {w : Nat} (f : JFields) (acc : Value w) : Bool :=
  !f.cond || (truth acc ^^ f.negateInstr)

end Sys2Proof.Machine
end

