-- ==== Sys2Proof/Machine/Alu.lean ====
section
/-! DEFINITION. The two-operand function `alu` (R108) with the laws of R130 and R140, each as the configured
`AluLaws` has it. -/

namespace Sys2Proof.Machine

/-- `sval(v)`: the two's-complement reading (R8). -/
def sval {w : Nat} (v : Value w) : Int := v.toInt

/-- `wrap(n)`: the value whose signed reading is `n` modulo `2^VW` (R8). -/
def wrap {w : Nat} (n : Int) : Value w := BitVec.ofInt w n

/-- `tdiv(n, d)`, division truncating toward zero, in R130's own form
`sign(n)·sign(d)·floor(|n| / |d|)`. -/
def tdiv (n d : Int) : Int := n.sign * d.sign * ((n.natAbs / d.natAbs : Nat) : Int)

/-- An exact result as a value: R130's `wrap`, or the nearest value of the signed range. -/
def narrow {w : Nat} (law : OverflowLaw) (n : Int) : Value w :=
  match law with
  | .wrapping => wrap n
  | .saturating => wrap (max (-2 ^ (w - 1)) (min n (2 ^ (w - 1) - 1)))

/-- The quotient of two integers: R130's `tdiv`, or the one rounded downward. -/
def quotient (law : RoundingLaw) (n d : Int) : Int :=
  match law with
  | .truncated => tdiv n d
  | .floored => Int.fdiv n d

/-- The integer a comparison takes a value for: `sval` (R140), or the unsigned number. -/
def reading {w : Nat} (law : OrderLaw) (v : Value w) : Int :=
  match law with
  | .signed => sval v
  | .unsigned => (v.toNat : Int)

/-- AND, OR or XOR: of the truth values (R125 to R127), or of the bits. -/
def combine {w : Nat} (law : LogicLaw) (onTruth : Bool → Bool → Bool)
    (onBits : Value w → Value w → Value w) (a x : Value w) : Value w :=
  match law with
  | .logical => b2v (onTruth (truth a) (truth x))
  | .bitwise => onBits a x

/-- The value an operator gives under the configured laws, `a` the older (left) value, where there is one:
for DIV where `x` is not 0. -/
def aluResult {w : Nat} (laws : AluLaws) (op : TwoOp) (a x : Value w) : Value w :=
  match laws with
  | .other tag => Config.otherAlu w tag op a x
  | .laws logic overflow rounding order =>
    match op with
    | .and => combine logic (· && ·) (· &&& ·) a x
    | .or => combine logic (· || ·) (· ||| ·) a x
    | .xor => combine logic (· ^^ ·) (· ^^^ ·) a x
    | .add => narrow overflow (sval a + sval x)
    | .sub => narrow overflow (sval a - sval x)
    | .mul => narrow overflow (sval a * sval x)
    | .div => narrow overflow (quotient rounding (sval a) (sval x))
    | .gt => b2v (decide (reading order a > reading order x))
    | .ge => b2v (decide (reading order a ≥ reading order x))
    | .eq => b2v (decide (reading order a = reading order x))
    | .ne => b2v (decide (reading order a ≠ reading order x))
    | .le => b2v (decide (reading order a ≤ reading order x))
    | .lt => b2v (decide (reading order a < reading order x))

/-- `alu(op, a, x)` of R108; `none` is the signal `DivZero`, given by DIV with divisor 0 and by nothing else,
whatever the laws (R130). A comparison is of `sval` by default, as R140's pseudocode has it, at every width.
DESIGN CHOICE (log entry 19): so also at `VW` = 1, where the value 1 reads as -1 and R140's sentence
"true > false" does not hold. -/
def alu {w : Nat} (laws : AluLaws) (op : TwoOp) (a x : Value w) : Option (Value w) :=
  if op = .div ∧ x = 0 then none else some (aluResult laws op a x)

end Sys2Proof.Machine
end

