-- ==== Sys2Proof/Machine/State.lean ====
section
/-! DEFINITION. The state: the configuration (R5, R14), and the engine, that is the five elements of R13, the
inputs latched at reset (R14, R190), the cells of the reference storage (R52) and the record of the port's
accesses (R51). -/

namespace Sys2Proof.Machine

/-- The five stops: the four of `RuntimeError` and the normal stop (R160). -/
inductive Stop where
  | halted | divisionByZero | illegalOpcode | programOverrun | cancelled
  deriving DecidableEq, Repr

/-- `status` (R29): `Running`, or the stop that ended the run. -/
inductive Status where
  | running
  | stopped (why : Stop)
  deriving DecidableEq, Repr

/-- A frame of the evaluation stack: the pending operator and the partial accumulator (R27). -/
structure Frame (w : Nat) where
  op : TwoOp
  acc : Value w
  deriving DecidableEq, Repr

/-- What stands behind the operand-memory port: the reference memory of R52, or a host storage of which
nothing is assumed (R51). Of the latter, `tag` names what it held before the accesses `past`, which runs
that have ended made on it, newest first (R58). -/
inductive Storage (w : Nat) where
  | reference
  | host (tag : Nat) (past : List (PortEvent w))
  deriving DecidableEq, Repr

/-- One listed cell of the reference memory: the number of its key and the value it holds (log entry 5). -/
abbrev MemCell (w : Nat) := Nat × Value w

/-- The listed cells of the reference memory (R52); the canonical form is `Memory.wf`. -/
abbrev Memory (w : Nat) := List (MemCell w)

/-- The engine over values of `w` bits, with the inputs of its run and the storage behind its port. -/
structure Engine (w : Nat) where
  /-- The program counter, an index into the program (R15 to R17). -/
  pc : Nat
  /-- The accumulator (R18 to R20). -/
  acc : Value w
  /-- The evaluation stack, top first (R27, R28). -/
  es : List (Frame w)
  /-- The status register (R29). -/
  status : Status
  /-- The instructions executed to completion (R30). -/
  steps : Nat
  /-- `PROG`; its length is `PLEN` (R14, R36). -/
  prog : List Word
  /-- `BUDGET` (R14, R101). -/
  budget : Option Nat
  /-- `CLOSE_OPCODE` (R5, R115). -/
  closeOpcode : Option Reserved
  /-- Which storage the memory reference names (R51, R52). -/
  storage : Storage w
  /-- The cells of the reference memory (R52). -/
  mem : Memory w
  /-- The accesses of this run on the port, newest first: the model's own record (R51, log entry 6). -/
  ports : List (PortEvent w)
  deriving DecidableEq, Repr

/-- The whole state of the machine: its configuration, which no step changes (R14), and its engine, over
values of the configured width (R20). -/
structure State where
  params : Params
  engine : Engine params.vw
  deriving DecidableEq, Repr

/-- The machine of `s` with another engine. -/
def State.put (s : State) (e : Engine s.params.vw) : State := ⟨s.params, e⟩

/-- The machine of `s` with its engine changed by `g`. -/
def State.on (s : State) (g : Engine s.params.vw → Engine s.params.vw) : State := s.put (g s.engine)

/-- Why a step does not happen. -/
inductive Fault where
  /-- Raised by `step` alone, at a state whose status is not `Running`: the run has ended and the engine
  takes no further step (R171). Safe: the machine does nothing there. -/
  | stopped (why : Stop)
  /-- Raised by the thirteen two-operand instructions with `push` = 1, where the configuration bounds the
  evaluation stack and it is full: stuck, as U13 has it. Never raised where `ES_DEPTH` is `none`, the
  default. Safe: the machine does nothing there. -/
  | stackFull
  deriving DecidableEq, Repr

/-- Why an instruction has no meaning. -/
inductive Refusal where
  /-- For an arm of `exec` whose instruction has no meaning yet. No arm raises it. Safe. -/
  | notModelled (mnemonic : String)
  deriving DecidableEq, Repr

/-- The outcome of one step or of one instruction. -/
abbrev Result := Host.Outcome State Fault Refusal

/-- What the host supplies at the start of a run (R31, R190, R192) and the configuration of R5. -/
structure Launch where
  params : Params
  prog : List Word
  budget : Option Nat
  accInit : Value params.vw
  closeOpcode : Option Reserved
  storage : Storage params.vw
  mem : Memory params.vw
  deriving DecidableEq, Repr

/-- Reset: the start of a run with these inputs (R34, R190). The operand memory is taken as it is. -/
def State.launch (l : Launch) : State where
  params := l.params
  engine :=
    { pc := 0
      acc := l.accInit
      es := []
      status := .running
      steps := 0
      prog := l.prog
      budget := l.budget
      closeOpcode := l.closeOpcode
      storage := l.storage
      mem := l.mem
      ports := [] }

/-- The parameters of R5 at the spec's defaults, with what the spec leaves open chosen by the model: no
program (log entry 2), `ACC_INIT` 0 (log entry 1), the reference memory (log entry 4) with every cell 0
(log entry 5). -/
def Launch.default : Launch where
  params := Params.default
  prog := []
  budget := none
  accInit := 0#16
  closeOpcode := none
  storage := .reference
  mem := []

/-- The machine right after reset, at the default inputs. -/
def State.reset : State := State.launch Launch.default

end Sys2Proof.Machine
end

