-- ==== Sys2Proof/Machine/Ops.lean ====
section
/-! DEFINITION. The named operations over the state: the reference memory and the operand-memory port
(20_memory.md), fetch and the budget (R101 to R103), completion (R110), and a stop (R170). -/

namespace Sys2Proof

/-- The number of a key among all keys: its 22 bits `kind ‖ mode ‖ a` read as one number. Different keys
have different numbers, since the reference memory has no aliasing (R40, R52). -/
def Key.index (k : Key) : Nat :=
  k.kind.toNat * 131072 + k.word.toNat * 65536 + k.addr.toNat

/-- The nominal width `n` of an access: 1 for a discrete key, `VW` for a word key (R40, R48). -/
def Key.width (p : Params) (k : Key) : Nat := if k.word then p.vw else 1

end Sys2Proof

namespace Sys2Proof.Machine

/-- What a cell that is not listed holds (R52: "Cells not named in a vector's start state hold 0"). -/
def Memory.unlisted {w : Nat} : Value w := 0

/-- The value of cell number `i`. -/
def Memory.read {w : Nat} : Memory w → Nat → Value w
  | [], _ => Memory.unlisted
  | (j, v) :: rest, i => if i = j then v else Memory.read rest i

/-- Cell number `i` set to `v`; every other cell as it was. Keeps the canonical form: the value an
unlisted cell holds is not listed. -/
def Memory.write {w : Nat} : Memory w → Nat → Value w → Memory w
  | [], i, v => if v = Memory.unlisted then [] else [(i, v)]
  | (j, u) :: rest, i, v =>
    if i < j then
      if v = Memory.unlisted then (j, u) :: rest else (i, v) :: (j, u) :: rest
    else if i = j then
      if v = Memory.unlisted then rest else (i, v) :: rest
    else (j, u) :: Memory.write rest i v

/-- The canonical form from cell number `lo` on: numbers strictly rising, each the number of some key, no
cell listed with the value an unlisted cell holds. -/
def Memory.wfFrom {w : Nat} (lo : Nat) : Memory w → Bool
  | [] => true
  | (i, v) :: rest =>
    decide (lo ≤ i) && decide (i < 2 ^ 22) && decide (v ≠ Memory.unlisted) && Memory.wfFrom (i + 1) rest

/-- The canonical form of the reference memory. -/
def Memory.wf {w : Nat} (m : Memory w) : Bool := Memory.wfFrom 0 m

variable {w : Nat}

/-- The reference memory's cell at a key. -/
def Engine.cell (e : Engine w) (k : Key) : Value w := e.mem.read k.index

/-- What the reference memory keeps of a written value: a discrete cell keeps one boolean (R42, R52). -/
def kept (k : Key) (v : Value w) : Value w := if k.word then v else b2v (truth v)

/-- What `MemRead` answers at this state: the cell of the reference memory (R52), or whatever the host's
storage says (R51). Not normalised, also for a discrete key (R41). -/
def portAnswer (k : Key) (e : Engine w) : Value w :=
  match e.storage with
  | .reference => e.cell k
  | .host tag past => Config.hostRead w tag (e.ports ++ past) k

/-- `MemRead(key, n)` (R38, R41): the value, and the state with the access recorded. -/
def memRead (k : Key) (e : Engine w) : Value w × Engine w :=
  (portAnswer k e, { e with ports := .read k (portAnswer k e) :: e.ports })

/-- `MemWrite(key, n, v)` (R38, R42): the value is handed over whole; the reference memory keeps `kept`
of it. Nothing in the core changes. -/
def memWrite (k : Key) (v : Value w) (e : Engine w) : Engine w :=
  { e with
    ports := .write k v :: e.ports
    mem := match e.storage with
      | .reference => e.mem.write k.index (kept k v)
      | .host _ _ => e.mem }

/-- `PLEN` (R36). -/
def plen (e : Engine w) : Nat := e.prog.length

/-- `PROG[pc]`, when `pc < PLEN` (R37, R102, R103). -/
def fetch (e : Engine w) : Option Word := e.prog[e.pc]?

/-- The budget check of R101: a budget was given and `steps` has reached it. -/
def budgetSpent (e : Engine w) : Bool :=
  match e.budget with
  | none => false
  | some b => decide (b ≤ e.steps)

/-- `acc <- v`. -/
def setAcc (v : Value w) (e : Engine w) : Engine w := { e with acc := v }

/-- `es <- frames`. -/
def setStack (frames : List (Frame w)) (e : Engine w) : Engine w := { e with es := frames }

/-- Completion (R110): `pc <- next_pc` and `steps <- steps + 1`. -/
def complete (nextPc : Nat) (e : Engine w) : Engine w :=
  { e with pc := nextPc, steps := e.steps + 1 }

/-- Completion with `next_pc = pc + 1` (R16, R110). -/
def advance (e : Engine w) : Engine w := complete (e.pc + 1) e

/-- A stop, the machine's only exception entry: `status` takes the stop and nothing else changes; `pc`
stays where it was and serves as the record (R165, R170). There is no return from it (R172). -/
def raise (why : Stop) (e : Engine w) : Engine w := { e with status := .stopped why }

/-- The code of `status` (R166). -/
def Status.code : Status → Nat
  | .running => 0
  | .stopped .halted => 1
  | .stopped .divisionByZero => 2
  | .stopped .illegalOpcode => 3
  | .stopped .programOverrun => 4
  | .stopped .cancelled => 5

/-- The 5-bit operator number of a frame (R27), in a configuration. -/
def Frame.number {w : Nat} (p : Params) (fr : Frame w) : BitVec 5 := p.number fr.op.opcode

/-- The storage as a run leaves it (R58): a host storage has had this run's accesses too. -/
def storageAfter {w : Nat} (e : Engine w) : Storage w :=
  match e.storage with
  | .reference => .reference
  | .host tag past => .host tag (e.ports ++ past)

/-- A new run over the memory as this one left it (R58, R172, R190): reset with the given inputs, the
storage and its cells carried over. A run over a memory that the host has changed in between is
`State.launch` with that memory. -/
def State.relaunch (s : State) (prog : List Word) (budget : Option Nat) (accInit : Value s.params.vw)
    (closeOpcode : Option Reserved) : State :=
  State.launch
    { params := s.params
      prog := prog
      budget := budget
      accInit := accInit
      closeOpcode := closeOpcode
      storage := storageAfter s.engine
      mem := s.engine.mem }

end Sys2Proof.Machine
end

