-- ==== Sys2Proof/Machine/Operands.lean ====
section
/-! DEFINITION. The operand forms: the key of a format-O instruction (R40), the operand fetch (R106), and
the write of ST, S and R (R121 to R123). -/

namespace Sys2Proof.Machine

/-- `key(w) = (kind, mode, a)` with `a = byte ‖ bit`, which is `word_value` when `word` = 1 (R40, R65). -/
def keyOf (f : OFields) : Key := ⟨f.kind, f.word, f.byte ++ f.bit⟩

/-- `opnd(f)` (R106): one `MemRead`, then `neg` when `negate_arg` = 1 (R107). -/
def opnd {w : Nat} (f : OFields) (e : Engine w) : Value w × Engine w :=
  (negIf f.negateArg (memRead (keyOf f) e).1, (memRead (keyOf f) e).2)

/-- A write of `v` to the operand. -/
def writeOperand {w : Nat} (f : OFields) (v : Value w) (e : Engine w) : Engine w := memWrite (keyOf f) v e

end Sys2Proof.Machine
end

