-- ==== Sys2Proof/Machine/Bracket.lean ====
section
/-! DEFINITION. The template of the thirteen two-operand instructions with the bracket mechanism (R109), its
bound where `ES_DEPTH` is one, and the close operation (R114, R115). -/

namespace Sys2Proof.Machine

/-- The template of R109. Without `push` the operator is applied, and a divisor of 0 stops the run; with
`push` the operator and the accumulator go on the stack and the accumulator takes the operand. The
operand has been read in every case. -/
def twoOperand {w : Nat} (laws : AluLaws) (op : TwoOp) (f : OFields) (e : Engine w) : Engine w :=
  let x := (opnd f e).1
  let e' := (opnd f e).2
  if f.push then advance (setAcc x (setStack (⟨op, e.acc⟩ :: e.es) e'))
  else
    match alu laws op e.acc x with
    | none => raise .divisionByZero e'
    | some r => advance (setAcc r e')

/-- A stack that can hold no further frame: `ES_DEPTH` is given and reached (U13). -/
def stackFull {w : Nat} (depth : Option Nat) (e : Engine w) : Bool :=
  match depth with
  | none => false
  | some d => decide (d ≤ e.es.length)

/-- A two-operand instruction (R109). Where a bracket would overflow a bounded stack it is stuck: the spec
bounds no stack and treats the overflow of one as `stuck` (U13, log entry 8). -/
def execTwoOperand (op : TwoOp) (f : OFields) (s : State) : Result :=
  if f.push && stackFull s.params.esDepth s.engine then .fault .stackFull
  else .next (s.on (twoOperand s.params.alu op f))

/-- The close instruction (R114, R115): without a frame no effect but completion; else the frame's operator
is applied, the saved partial accumulator on the left. -/
def closeBracket {w : Nat} (laws : AluLaws) (e : Engine w) : Engine w :=
  match e.es with
  | [] => advance e
  | fr :: rest =>
    match alu laws fr.op fr.acc e.acc with
    | none => raise .divisionByZero e
    | some r => advance (setAcc r (setStack rest e))

/-- A reserved opcode: the close instruction where `CLOSE_OPCODE` names it (R115), else `IllegalOpcode`
(R104, R154). -/
def reserved {w : Nat} (laws : AluLaws) (r : Reserved) (e : Engine w) : Engine w :=
  if e.closeOpcode = some r then closeBracket laws e else raise .illegalOpcode e

end Sys2Proof.Machine
end

