-- ==== Sys2Proof/Machine/Arithmetic.lean ====
section
/-! DEFINITION. The arithmetic instructions (43_arithmetic.md). -/

namespace Sys2Proof.Machine

/-- ADD (R131). -/
def execAdd (f : OFields) (s : State) : Result := execTwoOperand .add f s

/-- SUB (R132). -/
def execSub (f : OFields) (s : State) : Result := execTwoOperand .sub f s

/-- MUL (R133). -/
def execMul (f : OFields) (s : State) : Result := execTwoOperand .mul f s

/-- DIV (R134). -/
def execDiv (f : OFields) (s : State) : Result := execTwoOperand .div f s

end Sys2Proof.Machine
end

