-- ==== Sys2Proof/Machine/Boolean.lean ====
section
/-! DEFINITION. The boolean instructions (42_boolean.md). -/

namespace Sys2Proof.Machine

/-- AND (R125). -/
def execAnd (f : OFields) (s : State) : Result := execTwoOperand .and f s

/-- OR (R126). -/
def execOr (f : OFields) (s : State) : Result := execTwoOperand .or f s

/-- XOR (R127). -/
def execXor (f : OFields) (s : State) : Result := execTwoOperand .xor f s

/-- NOT (R128): reads no field but the opcode and makes no access. -/
def execNot (s : State) : Result := .next (s.on fun e => advance (setAcc (neg e.acc) e))

end Sys2Proof.Machine
end

