-- ==== Sys2Proof/Machine/Compare.lean ====
section
/-! DEFINITION. The comparison instructions (44_compare.md). -/

namespace Sys2Proof.Machine

/-- GT (R141). -/
def execGt (f : OFields) (s : State) : Result := execTwoOperand .gt f s

/-- GE (R142). -/
def execGe (f : OFields) (s : State) : Result := execTwoOperand .ge f s

/-- EQ (R143). -/
def execEq (f : OFields) (s : State) : Result := execTwoOperand .eq f s

/-- NE (R144). -/
def execNe (f : OFields) (s : State) : Result := execTwoOperand .ne f s

/-- LE (R145). -/
def execLe (f : OFields) (s : State) : Result := execTwoOperand .le f s

/-- LT (R146). -/
def execLt (f : OFields) (s : State) : Result := execTwoOperand .lt f s

end Sys2Proof.Machine
end

