-- ==== Sys2Proof/Machine/Control.lean ====
section
/-! DEFINITION. The control instructions (45_control.md). -/

namespace Sys2Proof.Machine

/-- The index a transfer continues at (R150): the target when taken, else the next instruction. -/
def transferPc {w : Nat} (f : JFields) (e : Engine w) : Nat :=
  if taken f e.acc then f.target.toNat else e.pc + 1

/-- JMP (R151). The target is not compared with `PLEN` here (R156). -/
def execJmp (f : JFields) (s : State) : Result := .next (s.on fun e => complete (transferPc f e) e)

/-- CAL (R152): executes as a jump and saves nothing. -/
def execCal (f : JFields) (s : State) : Result := .next (s.on fun e => complete (transferPc f e) e)

/-- HALT (R153): the normal stop; `pc` and `steps` stay. -/
def execHalt (s : State) : Result := .next (s.on (raise .halted))

/-- RES21 (R154, R115). -/
def execRes21 (s : State) : Result := .next (s.on (reserved s.params.alu .res21))

/-- RES22 (R154, R115). -/
def execRes22 (s : State) : Result := .next (s.on (reserved s.params.alu .res22))

/-- RES23 (R154, R115). -/
def execRes23 (s : State) : Result := .next (s.on (reserved s.params.alu .res23))

/-- RES24 (R154, R115). -/
def execRes24 (s : State) : Result := .next (s.on (reserved s.params.alu .res24))

/-- RES25 (R154, R115). -/
def execRes25 (s : State) : Result := .next (s.on (reserved s.params.alu .res25))

/-- RES26 (R154, R115). -/
def execRes26 (s : State) : Result := .next (s.on (reserved s.params.alu .res26))

/-- RES27 (R154, R115). -/
def execRes27 (s : State) : Result := .next (s.on (reserved s.params.alu .res27))

/-- RES28 (R154, R115). -/
def execRes28 (s : State) : Result := .next (s.on (reserved s.params.alu .res28))

/-- RES29 (R154, R115). -/
def execRes29 (s : State) : Result := .next (s.on (reserved s.params.alu .res29))

/-- RES30 (R154, R115). -/
def execRes30 (s : State) : Result := .next (s.on (reserved s.params.alu .res30))

/-- RES31 (R154, R115). -/
def execRes31 (s : State) : Result := .next (s.on (reserved s.params.alu .res31))

end Sys2Proof.Machine
end

