-- ==== Sys2Proof/Machine/LoadStore.lean ====
section
/-! DEFINITION. The load and store instructions (41_load_store.md). -/

namespace Sys2Proof.Machine

/-- LD (R120): the accumulator takes the operand. -/
def execLd (f : OFields) (s : State) : Result :=
  .next (s.on fun e => advance (setAcc (opnd f e).1 (opnd f e).2))

/-- ST (R121): the accumulator, negated when `negate_arg` = 1, is written; the accumulator itself stays. -/
def execSt (f : OFields) (s : State) : Result :=
  .next (s.on fun e => advance (writeOperand f (negIf f.negateArg e.acc) e))

/-- S (R122): 1 is written if the accumulator is true; otherwise there is no access. -/
def execS (f : OFields) (s : State) : Result :=
  .next (s.on fun e => advance (if truth e.acc then writeOperand f 1 e else e))

/-- R (R123): 0 is written if the accumulator is true; otherwise there is no access. -/
def execR (f : OFields) (s : State) : Result :=
  .next (s.on fun e => advance (if truth e.acc then writeOperand f 0 e else e))

end Sys2Proof.Machine
end

