-- ==== Sys2Proof/Machine/Dispatch.lean ====
section
/-! DEFINITION. Dispatch (R105): one arm per constructor of Instr. -/

namespace Sys2Proof.Machine

def exec (i : Instr) (s : State) : Host.Outcome State Fault Refusal :=
  match i with
  | .ld f => Sys2Proof.Machine.execLd f s
  | .st f => Sys2Proof.Machine.execSt f s
  | .s f => Sys2Proof.Machine.execS f s
  | .r f => Sys2Proof.Machine.execR f s
  | .and f => Sys2Proof.Machine.execAnd f s
  | .or f => Sys2Proof.Machine.execOr f s
  | .xor f => Sys2Proof.Machine.execXor f s
  | .not _ => Sys2Proof.Machine.execNot s
  | .add f => Sys2Proof.Machine.execAdd f s
  | .sub f => Sys2Proof.Machine.execSub f s
  | .mul f => Sys2Proof.Machine.execMul f s
  | .div f => Sys2Proof.Machine.execDiv f s
  | .gt f => Sys2Proof.Machine.execGt f s
  | .ge f => Sys2Proof.Machine.execGe f s
  | .eq f => Sys2Proof.Machine.execEq f s
  | .ne f => Sys2Proof.Machine.execNe f s
  | .le f => Sys2Proof.Machine.execLe f s
  | .lt f => Sys2Proof.Machine.execLt f s
  | .jmp f => Sys2Proof.Machine.execJmp f s
  | .cal f => Sys2Proof.Machine.execCal f s
  | .halt _ => Sys2Proof.Machine.execHalt s
  | .res21 _ => Sys2Proof.Machine.execRes21 s
  | .res22 _ => Sys2Proof.Machine.execRes22 s
  | .res23 _ => Sys2Proof.Machine.execRes23 s
  | .res24 _ => Sys2Proof.Machine.execRes24 s
  | .res25 _ => Sys2Proof.Machine.execRes25 s
  | .res26 _ => Sys2Proof.Machine.execRes26 s
  | .res27 _ => Sys2Proof.Machine.execRes27 s
  | .res28 _ => Sys2Proof.Machine.execRes28 s
  | .res29 _ => Sys2Proof.Machine.execRes29 s
  | .res30 _ => Sys2Proof.Machine.execRes30 s
  | .res31 _ => Sys2Proof.Machine.execRes31 s

end Sys2Proof.Machine
end

