-- ==== Sys2Proof/Machine/Step.lean ====
section
/-! DEFINITION. The step (R100): while the status is `Running`, the budget check, the overrun check, fetch
and decode, and the instruction, in that order (R168). The illegal-opcode check of R104 is the meaning of
the reserved opcodes. -/

namespace Sys2Proof.Machine

/-- One step. A stopped state has none (R171). -/
def step (s : State) : Host.Outcome State Fault Refusal :=
  match s.engine.status with
  | .stopped why => .fault (.stopped why)
  | .running =>
    if budgetSpent s.engine then .next (s.on (raise .cancelled))
    else
      match fetch s.engine with
      | none => .next (s.on (raise .programOverrun))
      | some w => exec (decode s.params w) s

/-- The program with `w` at index `i`, filled up with zero words where it was shorter. -/
def placeWord (prog : List Word) (i : Nat) (w : Word) : List Word :=
  (prog ++ List.replicate (i + 1 - prog.length) 0).set i w

/-- `s` with the instruction whose bits are `w` where `step` fetches its next one. The engine fetches only
while it is running and its budget lasts, so a stopped status is set to `Running` and a spent budget is
lifted (log entry 11). -/
def State.withFetchWord (s : State) (nbits w : Nat) : State :=
  s.on fun e =>
    { e with
      prog := placeWord e.prog e.pc (BitVec.ofNat 32 (w % 2 ^ nbits))
      status := .running
      budget := if budgetSpent e then none else e.budget }

end Sys2Proof.Machine
end

