-- ==== Sys2Proof/Machine/Run.lean ====
section
/-! DEFINITION. The run (R111): steps while the status is `Running`, and the result the host is given. -/

namespace Sys2Proof.Machine

/-- The result of `execute` (R111): `Ok(())`, the named error, or no result yet. -/
inductive RunResult where
  | ok
  | error (why : Stop)
  | unfinished
  deriving DecidableEq, Repr

/-- The result a status reports (R111, R165, R193). -/
def Status.result : Status → RunResult
  | .running => .unfinished
  | .stopped .halted => .ok
  | .stopped .divisionByZero => .error .divisionByZero
  | .stopped .illegalOpcode => .error .illegalOpcode
  | .stopped .programOverrun => .error .programOverrun
  | .stopped .cancelled => .error .cancelled

/-- At most `n` steps of the run, staying where it stops. A run need not end (R111), so the number of
steps is the reader's. -/
def runFor : Nat → State → State
  | 0, s => s
  | n + 1, s =>
    match step s with
    | .next t => runFor n t
    | .fault _ => s
    | .refused _ => s

end Sys2Proof.Machine
end

