-- ==== Sys2Proof/Safety.lean ====
section
/-! DEFINITION. What counts as the end of a run (R193), and the terms the statements use, written from the
rules and not from the meanings: the value an operand has, what a completed step and a stop leave as they
were, and the invariants. -/

namespace Sys2Proof.Machine

/-- The run has ended (R193). -/
def Engine.ended {w : Nat} (e : Engine w) : Bool := e.status != .running

/-- The run ended well (R193). -/
def Engine.endedWell {w : Nat} (e : Engine w) : Bool := e.status == .stopped .halted

/-- The run ended badly for the program; `Cancelled` is the host's own doing (R193). -/
def Engine.endedBadly {w : Nat} (e : Engine w) : Bool :=
  e.status == .stopped .divisionByZero || e.status == .stopped .illegalOpcode ||
    e.status == .stopped .programOverrun

variable {w : Nat}

/-- The key an instruction's operand fields name (R40). -/
def operandKey (f : OFields) : Key where
  kind := f.kind
  word := f.word
  addr := f.byte ++ f.bit

/-- What the storage answers to a read of a key (R41, R51, R52). -/
def stored (s : Engine w) (k : Key) : Value w :=
  match s.storage with
  | .reference => s.cell k
  | .host tag past => Config.hostRead w tag (s.ports ++ past) k

/-- The operand value `opnd(f)` (R106, R107). -/
def fetched (f : OFields) (s : Engine w) : Value w :=
  if f.negateArg then (if stored s (operandKey f) = 0 then 1 else 0) else stored s (operandKey f)

/-- The inputs of the run are as they were (R14). -/
def SameInputs (s t : Engine w) : Prop :=
  t.prog = s.prog ∧ t.budget = s.budget ∧ t.closeOpcode = s.closeOpcode ∧ t.storage = s.storage

/-- Every cell of the reference memory reads as it did. -/
def SameCells (s t : Engine w) : Prop := ∀ k, t.cell k = s.cell k

/-- Every cell but the one at `key` reads as it did. -/
def SameCellsBut (key : Key) (s t : Engine w) : Prop := ∀ k, k ≠ key → t.cell k = s.cell k

/-- The port was not used. -/
def NoAccess (s t : Engine w) : Prop := t.ports = s.ports

/-- The port was used for exactly one read, of the operand's key. -/
def OneRead (f : OFields) (s t : Engine w) : Prop :=
  t.ports = .read (operandKey f) (stored s (operandKey f)) :: s.ports

/-- The port was used for exactly one write, of `v` to the operand's key. -/
def OneWrite (f : OFields) (v : Value w) (s t : Engine w) : Prop :=
  t.ports = .write (operandKey f) v :: s.ports

/-- The step completed with `next_pc` as given: the run goes on, one more step is counted, the inputs stay
(R110). -/
def CompletedAt (nextPc : Nat) (s t : Engine w) : Prop :=
  t.pc = nextPc ∧ t.steps = s.steps + 1 ∧ t.status = s.status ∧ SameInputs s t

/-- The step stopped the run: nothing but the status changed (R170). -/
def StoppedBy (why : Stop) (s t : Engine w) : Prop :=
  t.status = .stopped why ∧ t.pc = s.pc ∧ t.acc = s.acc ∧ t.es = s.es ∧ t.steps = s.steps ∧
    SameInputs s t ∧ SameCells s t

/-- The evaluation stack can take one more frame: it has no bound, or has not reached it (R27, U13). -/
def HasRoom (p : Params) (s : Engine w) : Prop := ∀ d, p.esDepth = some d → s.es.length < d

/-- The effect of a two-operand instruction that completes (R109): the operand is read; without `push`
the accumulator is left with what the configured `alu` gives, which has `result` under the spec's default
laws; with `push` the frame is opened and the accumulator takes the operand. -/
def AppliedOrOpened (laws : AluLaws) (op : TwoOp) (result : Prop) (f : OFields) (s t : Engine w) : Prop :=
  CompletedAt (s.pc + 1) s t ∧ SameCells s t ∧ OneRead f s t ∧
    (f.push = false →
      t.es = s.es ∧ alu laws op s.acc (fetched f s) = some t.acc ∧ (laws = .default → result)) ∧
    (f.push = true → t.es = ⟨op, s.acc⟩ :: s.es ∧ t.acc = fetched f s)

/-- What a storage keeps of a value written to a key: the reference memory keeps one boolean of a discrete
cell (R52). -/
def keptOf (k : Key) (v : Value w) : Value w := if k.word then v else if v = 0 then 0 else 1

/-- The effect of writing `v` to the operand (R42, R51, R52): the reference memory's cell keeps what it
keeps and every other cell stays; where a host storage stands behind the port, no cell of the reference
memory changes. -/
def WroteOperand (f : OFields) (v : Value w) (s t : Engine w) : Prop :=
  OneWrite f v s t ∧ SameCellsBut (operandKey f) s t ∧
    (s.storage = .reference → t.cell (operandKey f) = keptOf (operandKey f) v) ∧
    (s.storage ≠ .reference → SameCells s t)

/-- A value's signed reading agrees with an integer modulo `2^VW` (R8, `wrap`). -/
def WrapsTo (v : Value w) (n : Int) : Prop := v.toInt ≡ n [ZMOD 2 ^ w]

/-- JMP and CAL transfer: always with `cond` = 0; with `cond` = 1 when the accumulator is true and
`negate_instr` = 0, or false and `negate_instr` = 1 (R150). -/
abbrev Transfers (f : JFields) (acc : Value w) : Prop :=
  f.cond = false ∨ (acc ≠ 0 ∧ f.negateInstr = false) ∨ (acc = 0 ∧ f.negateInstr = true)

/-- The budget is spent: one was given and `steps` has reached it (R101). -/
def Spent (s : Engine w) : Prop := ∃ b, s.budget = some b ∧ b ≤ s.steps

/-- The engine is about to execute `i`: it is running, its budget lasts, and the word at `pc` decodes to
`i` (R100). -/
def Executes (p : Params) (s : Engine p.vw) (i : Instr) : Prop :=
  s.status = .running ∧ ¬ Spent s ∧ ∃ x, s.prog[s.pc]? = some x ∧ decode p x = i

/-- The two-operand operator of an instruction, with its fields: one of the thirteen that honour `push`
(R108, R109). -/
def twoOpOf : Instr → Option (TwoOp × OFields)
  | .and f => some (.and, f) | .or f => some (.or, f) | .xor f => some (.xor, f)
  | .add f => some (.add, f) | .sub f => some (.sub, f) | .mul f => some (.mul, f)
  | .div f => some (.div, f)
  | .gt f => some (.gt, f) | .ge f => some (.ge, f) | .eq f => some (.eq, f)
  | .ne f => some (.ne, f) | .le f => some (.le, f) | .lt f => some (.lt, f)
  | .ld _ | .st _ | .s _ | .r _ | .not _ | .jmp _ | .cal _ | .halt _ => none
  | .res21 _ | .res22 _ | .res23 _ | .res24 _ | .res25 _ | .res26 _ => none
  | .res27 _ | .res28 _ | .res29 _ | .res30 _ | .res31 _ => none

/-- The instruction opens no bracket, or the stack has room for the frame. -/
def Fits (p : Params) (i : Instr) (s : Engine w) : Prop :=
  ∀ op f, twoOpOf i = some (op, f) → f.push = true → HasRoom p s

/-- The operand fields of an instruction that reads its operand: LD and the thirteen two-operand ones
(R45). -/
def readerOf : Instr → Option OFields
  | .ld f | .and f | .or f | .xor f | .add f | .sub f | .mul f | .div f
  | .gt f | .ge f | .eq f | .ne f | .le f | .lt f => some f
  | .st _ | .s _ | .r _ | .not _ | .jmp _ | .cal _ | .halt _ => none
  | .res21 _ | .res22 _ | .res23 _ | .res24 _ | .res25 _ | .res26 _ => none
  | .res27 _ | .res28 _ | .res29 _ | .res30 _ | .res31 _ => none

/-- The port's use by an instruction, by the table of R45: one read, one write, a write only when the
accumulator is true, or no access. -/
def PortUse (i : Instr) (s t : Engine w) : Prop :=
  match i with
  | .ld f | .and f | .or f | .xor f | .add f | .sub f | .mul f | .div f
  | .gt f | .ge f | .eq f | .ne f | .le f | .lt f => OneRead f s t
  | .st f => ∃ v, OneWrite f v s t
  | .s f | .r f => (s.acc ≠ 0 → ∃ v, OneWrite f v s t) ∧ (s.acc = 0 → NoAccess s t)
  | .not _ | .jmp _ | .cal _ | .halt _ => NoAccess s t
  | .res21 _ | .res22 _ | .res23 _ | .res24 _ | .res25 _ | .res26 _
  | .res27 _ | .res28 _ | .res29 _ | .res30 _ | .res31 _ => NoAccess s t

/-- The instruction a reserved opcode makes with the given fields. -/
def reservedInstr (r : Reserved) (f : OFields) : Instr :=
  match r with
  | .res21 => .res21 f | .res22 => .res22 f | .res23 => .res23 f | .res24 => .res24 f
  | .res25 => .res25 f | .res26 => .res26 f | .res27 => .res27 f | .res28 => .res28 f
  | .res29 => .res29 f | .res30 => .res30 f | .res31 => .res31 f

/-- Invariant: the reference memory has its canonical form. -/
def Engine.MemoryCanonical (s : Engine w) : Prop := s.mem.wf = true

/-- Invariant: every discrete cell holds 0 or 1 (R52). -/
def Engine.DiscreteCellsBoolean (s : Engine w) : Prop :=
  ∀ k : Key, k.word = false → s.cell k = 0 ∨ s.cell k = 1

/-- Invariant: `pc ≤ max(PLEN, 2^25 - 1)` (R17). -/
def Engine.PcBounded (s : Engine w) : Prop := s.pc ≤ max s.prog.length (2 ^ 25 - 1)

/-- Invariant: the evaluation stack has no more frames than a bounded one can hold (U13). -/
def Engine.WithinDepth (p : Params) (s : Engine w) : Prop := ∀ d, p.esDepth = some d → s.es.length ≤ d

/-- Invariant: no more instructions have completed than the budget allows (R101). -/
def Engine.WithinBudget (s : Engine w) : Prop := ∀ b, s.budget = some b → s.steps ≤ b

end Sys2Proof.Machine
end

