-- ==== Sys2Proof/Certificates/Slice0/Obligations.lean ====
section
/-! DEFINITION. The statements for the provers. They hold in every configuration (R5), but for the words
and numbers of the spec's default one, which name `Params.default` (log entry 7). Where a rule rests on a
decision of 92_eei_decisions.md the docstring names it. -/

open Sys2Proof Sys2Proof.Machine

/-! ### The codec -/

/-- R73: decoding an encoded record gives the record back. -/
def Obligations.CodecDecodeAfterEncode : Prop :=
  ∀ (p : Params) (r : Fields), r.wf p = true → decodeFields p (encodeFields r) = r

/-- 30_encoding.md section 3 (the spec marks R74 as derived): every word decodes to a well-formed record,
and encoding that record gives the word back. -/
def Obligations.CodecEncodeAfterDecode : Prop :=
  ∀ (p : Params) (w : Word), (decodeFields p w).wf p = true ∧ encodeFields (decodeFields p w) = w

/-- 30_encoding.md sections 3 and 4: instructions and words correspond one to one, in every configuration,
whose numbering is one to one by the model's deduction (log entry 18). -/
def Obligations.InstructionWordBijection : Prop :=
  ∀ p : Params, (∀ i : Instr, decode p (encode p i) = i) ∧ (∀ w : Word, encode p (decode p w) = w)

/-- R68, as a number: every field at its place and nothing else. -/
def Obligations.FormatOWordIsSumOfFields : Prop :=
  ∀ (n : BitVec 5) (f : OFields), (encodeFields (.o n f)).toNat =
    n.toNat * 2 ^ 27 + f.cond.toNat * 2 ^ 26 + f.negateInstr.toNat * 2 ^ 25 + f.push.toNat * 2 ^ 24 +
    f.ret.toNat * 2 ^ 23 + f.word.toNat * 2 ^ 22 + f.negateArg.toNat * 2 ^ 21 + f.kind.toNat * 2 ^ 16 +
    f.byte.toNat * 2 ^ 8 + f.bit.toNat

/-- R69, as a number. -/
def Obligations.FormatJWordIsSumOfFields : Prop :=
  ∀ (n : BitVec 5) (f : JFields), (encodeFields (.j n f)).toNat =
    n.toNat * 2 ^ 27 + f.cond.toNat * 2 ^ 26 + f.negateInstr.toNat * 2 ^ 25 + f.target.toNat

/-- R64 with R6: each raw field is `(w >> lo) mod 2^(hi - lo + 1)`, unsigned. -/
def Obligations.RawFieldsArePlainSlices : Prop :=
  ∀ w : Word,
    (opcodeBits w).toNat = w.toNat / 2 ^ 27 % 2 ^ 5 ∧
    (oFields w).cond.toNat = w.toNat / 2 ^ 26 % 2 ∧ (jFields w).cond.toNat = w.toNat / 2 ^ 26 % 2 ∧
    (oFields w).negateInstr.toNat = w.toNat / 2 ^ 25 % 2 ∧
    (jFields w).negateInstr.toNat = w.toNat / 2 ^ 25 % 2 ∧
    (oFields w).push.toNat = w.toNat / 2 ^ 24 % 2 ∧ (oFields w).ret.toNat = w.toNat / 2 ^ 23 % 2 ∧
    (oFields w).word.toNat = w.toNat / 2 ^ 22 % 2 ∧
    (oFields w).negateArg.toNat = w.toNat / 2 ^ 21 % 2 ∧
    (oFields w).kind.toNat = w.toNat / 2 ^ 16 % 2 ^ 5 ∧
    (oFields w).byte.toNat = w.toNat / 2 ^ 8 % 2 ^ 8 ∧ (oFields w).bit.toNat = w.toNat % 2 ^ 8 ∧
    (wordValueBits w).toNat = w.toNat % 2 ^ 16 ∧ (jFields w).target.toNat = w.toNat % 2 ^ 25

/-- R61 (decision D5): format J exactly for the opcode numbers of JMP and CAL, which are 18 and 19 by
default, format O for every other. -/
def Obligations.FormatJExactlyForJumpOpcodes : Prop :=
  (∀ (p : Params) (w : Word),
    ((w.toNat / 2 ^ 27 = (p.number .jmp).toNat ∨ w.toNat / 2 ^ 27 = (p.number .cal).toNat) →
      ∃ n f, decodeFields p w = .j n f) ∧
    (w.toNat / 2 ^ 27 ≠ (p.number .jmp).toNat → w.toNat / 2 ^ 27 ≠ (p.number .cal).toNat →
      ∃ n f, decodeFields p w = .o n f)) ∧
  (Params.default.number .jmp).toNat = 18 ∧ (Params.default.number .cal).toNat = 19

/-- 00_scope.md section 3 and 30_encoding.md section 4: in every configuration the word's opcode number alone
selects the instruction, the defined opcodes have numbers up to 20, and the reserved ones the numbers 21 to
31. That every numbering is one to one and onto is the model's deduction, not the spec's word (log entry
18), in the shape log entry 7 gives `OPC`. -/
def Obligations.NumberingSelectsTheInstruction : Prop :=
  ∀ p : Params,
    (∀ o, p.opcode (p.number o) = o) ∧ (∀ n, p.number (p.opcode n) = n) ∧
    (∀ w : Word, (decode p w).opcode = p.opcode (opcodeBits w)) ∧
    (∀ o ∈ Opcode.defined, (p.number o).toNat ≤ 20) ∧
    (∀ r : Reserved, p.number r.opcode = Params.default.number r.opcode ∧ 21 ≤ (p.number r.opcode).toNat)

/-- 00_scope.md section 3 (decisions D1, D3, D6, D9 to D11, D14): the defaults of the spec's parameter table,
and that of `alu`. -/
def Obligations.DefaultConfiguration : Prop :=
  Params.default.vw = 16 ∧
  Opcode.defined.map (fun o => (Params.default.number o).toNat) = List.range 21 ∧
  OperandKind.all.map (fun k => (Params.default.kindNumber k).toNat) = List.range 17 ∧
  OperandKind.all = [.digitalInput, .analogInput, .fallingEdge, .risingEdge, .digitalMemory, .analogMemory,
    .commandTimer, .blinkOutput, .timeout, .digitalOutput, .analogOutput, .contact, .analogContact, .start,
    .pulseIn, .analogMemIn, .write] ∧
  Opcode.defined = [.ld, .st, .s, .r, .and, .or, .xor, .not, .add, .sub, .mul, .div, .gt, .ge, .eq, .ne,
    .le, .lt, .jmp, .cal, .halt] ∧
  Params.default.number .ld = 0 ∧ Params.default.number .halt = 20 ∧
  Params.default.kindNumber .digitalInput = 0 ∧ Params.default.kindNumber .write = 16 ∧
  Params.default.alu = .laws .logical .wrapping .truncated .signed ∧ Params.default.esDepth = none

/-- R76 (decision D1): a word that matches a row's base word under the mask `0xF8000000` is that row's
instruction with the word's fields, whatever its other bits. -/
def Obligations.EveryTableRowSelectsItsInstruction : Prop :=
  ∀ w m : Word, m = w &&& 0xF8000000#32 →
    (m = 0x00000000#32 → decode Params.default w = .ld (oFields w)) ∧
    (m = 0x08000000#32 → decode Params.default w = .st (oFields w)) ∧
    (m = 0x10000000#32 → decode Params.default w = .s (oFields w)) ∧
    (m = 0x18000000#32 → decode Params.default w = .r (oFields w)) ∧
    (m = 0x20000000#32 → decode Params.default w = .and (oFields w)) ∧
    (m = 0x28000000#32 → decode Params.default w = .or (oFields w)) ∧
    (m = 0x30000000#32 → decode Params.default w = .xor (oFields w)) ∧
    (m = 0x38000000#32 → decode Params.default w = .not (oFields w)) ∧
    (m = 0x40000000#32 → decode Params.default w = .add (oFields w)) ∧
    (m = 0x48000000#32 → decode Params.default w = .sub (oFields w)) ∧
    (m = 0x50000000#32 → decode Params.default w = .mul (oFields w)) ∧
    (m = 0x58000000#32 → decode Params.default w = .div (oFields w)) ∧
    (m = 0x60000000#32 → decode Params.default w = .gt (oFields w)) ∧
    (m = 0x68000000#32 → decode Params.default w = .ge (oFields w)) ∧
    (m = 0x70000000#32 → decode Params.default w = .eq (oFields w)) ∧
    (m = 0x78000000#32 → decode Params.default w = .ne (oFields w)) ∧
    (m = 0x80000000#32 → decode Params.default w = .le (oFields w)) ∧
    (m = 0x88000000#32 → decode Params.default w = .lt (oFields w)) ∧
    (m = 0x90000000#32 → decode Params.default w = .jmp (jFields w)) ∧
    (m = 0x98000000#32 → decode Params.default w = .cal (jFields w)) ∧
    (m = 0xA0000000#32 → decode Params.default w = .halt (oFields w)) ∧
    (m = 0xA8000000#32 → decode Params.default w = .res21 (oFields w)) ∧
    (m = 0xB0000000#32 → decode Params.default w = .res22 (oFields w)) ∧
    (m = 0xB8000000#32 → decode Params.default w = .res23 (oFields w)) ∧
    (m = 0xC0000000#32 → decode Params.default w = .res24 (oFields w)) ∧
    (m = 0xC8000000#32 → decode Params.default w = .res25 (oFields w)) ∧
    (m = 0xD0000000#32 → decode Params.default w = .res26 (oFields w)) ∧
    (m = 0xD8000000#32 → decode Params.default w = .res27 (oFields w)) ∧
    (m = 0xE0000000#32 → decode Params.default w = .res28 (oFields w)) ∧
    (m = 0xE8000000#32 → decode Params.default w = .res29 (oFields w)) ∧
    (m = 0xF0000000#32 → decode Params.default w = .res30 (oFields w)) ∧
    (m = 0xF8000000#32 → decode Params.default w = .res31 (oFields w))

/-- Sanity, words of 95_test_vectors.md (ENC2, ENC4, DEC6, DEC8, ENC9, ENC17, ENC31, DEC9) decode to what
the vectors say. -/
def Obligations.SpecVectorWordsDecode : Prop :=
  decode Params.default 0x006A0201#32 = .ld ⟨false, false, false, false, true, true, 10, 2, 1⟩ ∧
  decode Params.default 0x08290102#32 = .st ⟨false, false, false, false, false, true, 9, 1, 2⟩ ∧
  decode Params.default 0x9ABCDEF0#32 = .cal ⟨false, true, 12377840⟩ ∧
  decode Params.default 0x12345678#32 = .s ⟨false, true, false, false, false, true, 20, 86, 120⟩ ∧
  decode Params.default 0x2300FFFF#32 = .and ⟨false, true, true, false, false, false, 0, 255, 255⟩ ∧
  decode Params.default 0x58410001#32 = .div ⟨false, false, false, false, true, false, 1, 0, 1⟩ ∧
  decode Params.default 0xA0000000#32 = .halt ⟨false, false, false, false, false, false, 0, 0, 0⟩ ∧
  decode Params.default 0xDEADBEEF#32 = .res27 ⟨true, true, false, true, false, true, 13, 190, 239⟩

/-! ### Values -/

/-- R22 and R24 (decisions D7, D8): truth is being non-zero; the negation of a value is the value of its
truth negated, 1 for 0 and 0 for every other. -/
def Obligations.TruthAndBooleanNegation : Prop :=
  ∀ (w : Nat) (v : Value w),
    (truth v = true ↔ v ≠ 0) ∧ neg v = b2v (!truth v) ∧ neg (0 : Value w) = 1 ∧ (v ≠ 0 → neg v = 0)

/-- 10_state.md section 3: what the spec marks as derived of `truth`, `b2v` and `neg` (in R23 and R24). -/
def Obligations.TruthIdentities : Prop :=
  ∀ w : Nat, 0 < w →
    (∀ b, truth (b2v b : Value w) = b) ∧ (∀ v : Value w, b2v (truth v) = v ↔ v = 0 ∨ v = 1) ∧
    (∀ v : Value w, neg (neg v) = b2v (truth v)) ∧ (∀ v : Value w, neg (neg v) = v ↔ v = 0 ∨ v = 1)

/-- R108 (decisions D9 to D11): the thirteen rows of the table of `alu`, under the spec's default laws, in
integers; `WrapsTo` is agreement modulo `2^VW`. -/
def Obligations.AluTable : Prop :=
  ∀ (w : Nat) (a x : Value w),
    alu .default .and a x = some (if a ≠ 0 ∧ x ≠ 0 then 1 else 0) ∧
    alu .default .or a x = some (if a ≠ 0 ∨ x ≠ 0 then 1 else 0) ∧
    alu .default .xor a x = some (if (a ≠ 0 ∧ x = 0) ∨ (a = 0 ∧ x ≠ 0) then 1 else 0) ∧
    (∃ v, alu .default .add a x = some v ∧ WrapsTo v (a.toInt + x.toInt)) ∧
    (∃ v, alu .default .sub a x = some v ∧ WrapsTo v (a.toInt - x.toInt)) ∧
    (∃ v, alu .default .mul a x = some v ∧ WrapsTo v (a.toInt * x.toInt)) ∧
    (x = 0 → alu .default .div a x = none) ∧
    (x ≠ 0 → ∃ v, alu .default .div a x = some v ∧ WrapsTo v (Int.tdiv a.toInt x.toInt)) ∧
    alu .default .gt a x = some (if a.toInt > x.toInt then 1 else 0) ∧
    alu .default .ge a x = some (if a.toInt ≥ x.toInt then 1 else 0) ∧
    alu .default .eq a x = some (if a = x then 1 else 0) ∧
    alu .default .ne a x = some (if a ≠ x then 1 else 0) ∧
    alu .default .le a x = some (if a.toInt ≤ x.toInt then 1 else 0) ∧
    alu .default .lt a x = some (if a.toInt < x.toInt then 1 else 0)

/-- 43_arithmetic.md, the integer arithmetic laws (decision D10): by default the quotient is exact, truncated
toward zero, but for the most negative number by -1, which wraps to the most negative number. Under any
laws a division by zero, and nothing else, has no result. -/
def Obligations.DivisionTruncatesTowardZero : Prop :=
  (∀ (w : Nat) (a x : Value w), x ≠ 0 → ∃ v, alu .default .div a x = some v ∧
    (¬ (a.toInt = -2 ^ (w - 1) ∧ x.toInt = -1) → v.toInt = Int.tdiv a.toInt x.toInt) ∧
    (a.toInt = -2 ^ (w - 1) ∧ x.toInt = -1 → v = a)) ∧
  ∀ (laws : AluLaws) (w : Nat) (op : TwoOp) (a x : Value w), alu laws op a x = none ↔ op = .div ∧ x = 0

/-- 44_compare.md, trichotomy (the spec marks R147 as derived), under the spec's default laws: of LT, EQ and
GT exactly one gives 1, and GE, LE, NE are the negations of LT, GT, EQ. -/
def Obligations.ComparisonTrichotomy : Prop :=
  ∀ (w : Nat) (a x : Value w), 0 < w → ∃ l e g : Value w,
    alu .default .lt a x = some l ∧ alu .default .eq a x = some e ∧ alu .default .gt a x = some g ∧
    ((l = 1 ∧ e = 0 ∧ g = 0) ∨ (l = 0 ∧ e = 1 ∧ g = 0) ∨ (l = 0 ∧ e = 0 ∧ g = 1)) ∧
    alu .default .ge a x = some (neg l) ∧ alu .default .le a x = some (neg g) ∧ alu .default .ne a x = some (neg e)

/-- 44_compare.md, the common rule of the comparisons, under the spec's default laws: booleans compare as 1
and 0, so true is greater than false, where values have at least two bits. Where they have one bit the
rule's sentence and its pseudocode differ, and that the model follows the pseudocode, so that true is less
than false, is the model's choice (log entry 19). -/
def Obligations.BooleansCompareAsOneAndZero : Prop :=
  (∀ (w : Nat) (b c : Bool), 2 ≤ w →
    alu .default .gt (b2v b : Value w) (b2v c) = some (b2v (b && !c)) ∧
    alu .default .ge (b2v b : Value w) (b2v c) = some (b2v (b || !c)) ∧
    alu .default .eq (b2v b : Value w) (b2v c) = some (b2v (b == c)) ∧
    alu .default .ne (b2v b : Value w) (b2v c) = some (b2v (b != c)) ∧
    alu .default .le (b2v b : Value w) (b2v c) = some (b2v (!b || c)) ∧
    alu .default .lt (b2v b : Value w) (b2v c) = some (b2v (!b && c))) ∧
  alu .default .gt (b2v true : Value 1) (b2v false) = some (b2v false) ∧
  alu .default .lt (b2v true : Value 1) (b2v false) = some (b2v true)

/-! ### Load and store -/

/-- R120 (decision D12 for the ignored flags): LD completes; the accumulator takes the operand; nothing
depends on the accumulator before. -/
def Obligations.LoadTakesOperand : Prop :=
  ∀ (f : OFields) (p : Params) (s : Engine p.vw),
    encode Params.default (.ld f) &&& 0xF8000000#32 = 0x00000000#32 ∧
    (∃ t, exec (.ld f) ⟨p, s⟩ = .next ⟨p, t⟩ ∧ t.acc = fetched f s ∧ t.es = s.es ∧
      CompletedAt (s.pc + 1) s t ∧ SameCells s t ∧ OneRead f s t) ∧
    (∀ a, exec (.ld f) ⟨p, { s with acc := a }⟩ = exec (.ld f) ⟨p, s⟩)

/-- R121 (decision D12): ST completes; the operand takes the accumulator, negated when `negate_arg` = 1;
the accumulator stays; nothing is read. -/
def Obligations.StoreWritesAccumulator : Prop :=
  ∀ (f : OFields) (p : Params) (s : Engine p.vw), s.MemoryCanonical →
    encode Params.default (.st f) &&& 0xF8000000#32 = 0x08000000#32 ∧
    ∃ t, exec (.st f) ⟨p, s⟩ = .next ⟨p, t⟩ ∧ t.acc = s.acc ∧ t.es = s.es ∧ CompletedAt (s.pc + 1) s t ∧
      WroteOperand f (if f.negateArg then (if s.acc = 0 then 1 else 0) else s.acc) s t

/-- R122 (decisions D12, D28): S completes; it writes 1 when the accumulator is true, and otherwise makes
no access. -/
def Obligations.SetWritesOneWhenTrue : Prop :=
  ∀ (f : OFields) (p : Params) (s : Engine p.vw), s.MemoryCanonical →
    encode Params.default (.s f) &&& 0xF8000000#32 = 0x10000000#32 ∧
    ∃ t, exec (.s f) ⟨p, s⟩ = .next ⟨p, t⟩ ∧ t.acc = s.acc ∧ t.es = s.es ∧ CompletedAt (s.pc + 1) s t ∧
      (s.acc ≠ 0 → WroteOperand f 1 s t) ∧ (s.acc = 0 → NoAccess s t ∧ SameCells s t)

/-- R123 (decisions D12, D28): R completes; it writes 0 when the accumulator is true, and otherwise makes
no access. -/
def Obligations.ResetWritesZeroWhenTrue : Prop :=
  ∀ (f : OFields) (p : Params) (s : Engine p.vw), s.MemoryCanonical →
    encode Params.default (.r f) &&& 0xF8000000#32 = 0x18000000#32 ∧
    ∃ t, exec (.r f) ⟨p, s⟩ = .next ⟨p, t⟩ ∧ t.acc = s.acc ∧ t.es = s.es ∧ CompletedAt (s.pc + 1) s t ∧
      (s.acc ≠ 0 → WroteOperand f 0 s t) ∧ (s.acc = 0 → NoAccess s t ∧ SameCells s t)

/-! ### Boolean -/

/-- R125 (decisions D9, D12, D13), where the evaluation stack is not bounded or not full, as in every
statement on a two-operand instruction (`RunningEngineAlwaysSteps` has the full one); the result under the
spec's default laws of `alu`. -/
def Obligations.AndOfTruthValues : Prop :=
  ∀ (f : OFields) (p : Params) (s : Engine p.vw), (f.push = true → HasRoom p s) →
    encode Params.default (.and f) &&& 0xF8000000#32 = 0x20000000#32 ∧
    ∃ t, exec (.and f) ⟨p, s⟩ = .next ⟨p, t⟩ ∧
      AppliedOrOpened p.alu .and (t.acc = if s.acc ≠ 0 ∧ fetched f s ≠ 0 then 1 else 0) f s t

/-- R126 (decisions D9, D12, D13). -/
def Obligations.OrOfTruthValues : Prop :=
  ∀ (f : OFields) (p : Params) (s : Engine p.vw), (f.push = true → HasRoom p s) →
    encode Params.default (.or f) &&& 0xF8000000#32 = 0x28000000#32 ∧
    ∃ t, exec (.or f) ⟨p, s⟩ = .next ⟨p, t⟩ ∧
      AppliedOrOpened p.alu .or (t.acc = if s.acc ≠ 0 ∨ fetched f s ≠ 0 then 1 else 0) f s t

/-- R127 (decisions D9, D12, D13). -/
def Obligations.XorOfTruthValues : Prop :=
  ∀ (f : OFields) (p : Params) (s : Engine p.vw), (f.push = true → HasRoom p s) →
    encode Params.default (.xor f) &&& 0xF8000000#32 = 0x30000000#32 ∧
    ∃ t, exec (.xor f) ⟨p, s⟩ = .next ⟨p, t⟩ ∧
      AppliedOrOpened p.alu .xor
        (t.acc = if (s.acc ≠ 0 ∧ fetched f s = 0) ∨ (s.acc = 0 ∧ fetched f s ≠ 0) then 1 else 0) f s t

/-- R128 (decisions D8, D12): NOT completes, without an access, whatever its fields. -/
def Obligations.NotNegatesAccumulator : Prop :=
  ∀ (f : OFields) (p : Params) (s : Engine p.vw),
    encode Params.default (.not f) &&& 0xF8000000#32 = 0x38000000#32 ∧
    ∃ t, exec (.not f) ⟨p, s⟩ = .next ⟨p, t⟩ ∧ t.acc = (if s.acc = 0 then 1 else 0) ∧ t.es = s.es ∧
      CompletedAt (s.pc + 1) s t ∧ SameCells s t ∧ NoAccess s t

/-! ### Arithmetic -/

/-- R131 (decisions D10, D12, D13). -/
def Obligations.AddWraps : Prop :=
  ∀ (f : OFields) (p : Params) (s : Engine p.vw), (f.push = true → HasRoom p s) →
    encode Params.default (.add f) &&& 0xF8000000#32 = 0x40000000#32 ∧
    ∃ t, exec (.add f) ⟨p, s⟩ = .next ⟨p, t⟩ ∧
      AppliedOrOpened p.alu .add (WrapsTo t.acc (s.acc.toInt + (fetched f s).toInt)) f s t

/-- R132 (decisions D10, D12, D13): the accumulator is the minuend. -/
def Obligations.SubWraps : Prop :=
  ∀ (f : OFields) (p : Params) (s : Engine p.vw), (f.push = true → HasRoom p s) →
    encode Params.default (.sub f) &&& 0xF8000000#32 = 0x48000000#32 ∧
    ∃ t, exec (.sub f) ⟨p, s⟩ = .next ⟨p, t⟩ ∧
      AppliedOrOpened p.alu .sub (WrapsTo t.acc (s.acc.toInt - (fetched f s).toInt)) f s t

/-- R133 (decisions D10, D12, D13): the low `VW` bits of the product. -/
def Obligations.MulWraps : Prop :=
  ∀ (f : OFields) (p : Params) (s : Engine p.vw), (f.push = true → HasRoom p s) →
    encode Params.default (.mul f) &&& 0xF8000000#32 = 0x50000000#32 ∧
    ∃ t, exec (.mul f) ⟨p, s⟩ = .next ⟨p, t⟩ ∧
      AppliedOrOpened p.alu .mul (WrapsTo t.acc (s.acc.toInt * (fetched f s).toInt)) f s t

/-- R134 (decisions D10, D12, D13, D20): DIV completes when it opens a bracket or its divisor is not 0;
otherwise it stops the run, its operand read and nothing written. -/
def Obligations.DivDividesOrStops : Prop :=
  ∀ (f : OFields) (p : Params) (s : Engine p.vw), (f.push = true → HasRoom p s) →
    encode Params.default (.div f) &&& 0xF8000000#32 = 0x58000000#32 ∧
    ((f.push = true ∨ fetched f s ≠ 0) → ∃ t, exec (.div f) ⟨p, s⟩ = .next ⟨p, t⟩ ∧
      AppliedOrOpened p.alu .div (WrapsTo t.acc (Int.tdiv s.acc.toInt (fetched f s).toInt)) f s t) ∧
    (f.push = false → fetched f s = 0 → ∃ t, exec (.div f) ⟨p, s⟩ = .next ⟨p, t⟩ ∧
      StoppedBy .divisionByZero s t ∧ OneRead f s t)

/-! ### Compare -/

/-- R140 to R146 (decisions D11, D12, D13): GT, GE, EQ, NE, LE and LT complete; without `push` the
accumulator is 1 or 0 by the signed comparison, the accumulator on the left. This is the pseudocode of
R140, at every width. -/
def Obligations.ComparisonsLeaveOneOrZero : Prop :=
  ∀ (f : OFields) (p : Params) (s : Engine p.vw), (f.push = true → HasRoom p s) →
    (encode Params.default (.gt f) &&& 0xF8000000#32 = 0x60000000#32 ∧ ∃ t, exec (.gt f) ⟨p, s⟩ = .next ⟨p, t⟩ ∧
      AppliedOrOpened p.alu .gt (t.acc = if s.acc.toInt > (fetched f s).toInt then 1 else 0) f s t) ∧
    (encode Params.default (.ge f) &&& 0xF8000000#32 = 0x68000000#32 ∧ ∃ t, exec (.ge f) ⟨p, s⟩ = .next ⟨p, t⟩ ∧
      AppliedOrOpened p.alu .ge (t.acc = if s.acc.toInt ≥ (fetched f s).toInt then 1 else 0) f s t) ∧
    (encode Params.default (.eq f) &&& 0xF8000000#32 = 0x70000000#32 ∧ ∃ t, exec (.eq f) ⟨p, s⟩ = .next ⟨p, t⟩ ∧
      AppliedOrOpened p.alu .eq (t.acc = if s.acc = fetched f s then 1 else 0) f s t) ∧
    (encode Params.default (.ne f) &&& 0xF8000000#32 = 0x78000000#32 ∧ ∃ t, exec (.ne f) ⟨p, s⟩ = .next ⟨p, t⟩ ∧
      AppliedOrOpened p.alu .ne (t.acc = if s.acc ≠ fetched f s then 1 else 0) f s t) ∧
    (encode Params.default (.le f) &&& 0xF8000000#32 = 0x80000000#32 ∧ ∃ t, exec (.le f) ⟨p, s⟩ = .next ⟨p, t⟩ ∧
      AppliedOrOpened p.alu .le (t.acc = if s.acc.toInt ≤ (fetched f s).toInt then 1 else 0) f s t) ∧
    (encode Params.default (.lt f) &&& 0xF8000000#32 = 0x88000000#32 ∧ ∃ t, exec (.lt f) ⟨p, s⟩ = .next ⟨p, t⟩ ∧
      AppliedOrOpened p.alu .lt (t.acc = if s.acc.toInt < (fetched f s).toInt then 1 else 0) f s t)

/-! ### Control -/

/-- R150, R151 (decision D16): JMP completes and changes nothing but `pc` and the count of steps. -/
def Obligations.JumpTransfersOrAdvances : Prop :=
  ∀ (f : JFields) (p : Params) (s : Engine p.vw),
    encode Params.default (.jmp f) &&& 0xF8000000#32 = 0x90000000#32 ∧
    ∃ t, exec (.jmp f) ⟨p, s⟩ = .next ⟨p, t⟩ ∧
      CompletedAt (if Transfers f s.acc then f.target.toNat else s.pc + 1) s t ∧
      t.acc = s.acc ∧ t.es = s.es ∧ SameCells s t ∧ NoAccess s t

/-- R152 (decision D15): CAL is executed as a jump and saves nothing; only its opcode differs from JMP's. -/
def Obligations.CallIsAJump : Prop :=
  ∀ (f : JFields) (p : Params) (s : Engine p.vw),
    encode Params.default (.cal f) &&& 0xF8000000#32 = 0x98000000#32 ∧
    (∃ t, exec (.cal f) ⟨p, s⟩ = .next ⟨p, t⟩ ∧
      CompletedAt (if Transfers f s.acc then f.target.toNat else s.pc + 1) s t ∧
      t.acc = s.acc ∧ t.es = s.es ∧ SameCells s t ∧ NoAccess s t) ∧
    exec (.cal f) ⟨p, s⟩ = exec (.jmp f) ⟨p, s⟩

/-- R153 (decisions D1, D2, D20): HALT stops the run well; nothing but the status changes. -/
def Obligations.HaltStopsTheRun : Prop :=
  ∀ (f : OFields) (p : Params) (s : Engine p.vw),
    encode Params.default (.halt f) &&& 0xF8000000#32 = 0xA0000000#32 ∧
    ∃ t, exec (.halt f) ⟨p, s⟩ = .next ⟨p, t⟩ ∧ StoppedBy .halted s t ∧ NoAccess s t

/-- R154: RES21 to RES31, each of the eleven that is not the configured close opcode, stop the run with
`IllegalOpcode`, without an access. -/
def Obligations.ReservedOpcodesStopTheRun : Prop :=
  ∀ (r : Reserved) (f : OFields) (p : Params) (s : Engine p.vw),
    encode Params.default (reservedInstr r f) &&& 0xF8000000#32 =
      BitVec.ofNat 32 (0xA8000000 + ((p.number r.opcode).toNat - 21) * 0x08000000) ∧
    (s.closeOpcode ≠ some r →
      ∃ t, exec (reservedInstr r f) ⟨p, s⟩ = .next ⟨p, t⟩ ∧ StoppedBy .illegalOpcode s t ∧ NoAccess s t)

/-- R114, R115 (decision D14): the reserved opcode that is `CLOSE_OPCODE` closes a bracket: no frame, no
effect but completion; else the frame's operator is applied with the saved partial accumulator on the
left, or a pending DIV by zero stops the run. -/
def Obligations.CloseCombinesWithPendingFrame : Prop :=
  ∀ (r : Reserved) (f : OFields) (p : Params) (s : Engine p.vw), s.closeOpcode = some r →
    (s.es = [] → ∃ t, exec (reservedInstr r f) ⟨p, s⟩ = .next ⟨p, t⟩ ∧ CompletedAt (s.pc + 1) s t ∧
      t.acc = s.acc ∧ t.es = [] ∧ SameCells s t ∧ NoAccess s t) ∧
    (∀ op a rest, s.es = ⟨op, a⟩ :: rest →
      (¬ (op = .div ∧ s.acc = 0) → ∃ t, exec (reservedInstr r f) ⟨p, s⟩ = .next ⟨p, t⟩ ∧
        CompletedAt (s.pc + 1) s t ∧ alu p.alu op a s.acc = some t.acc ∧ t.es = rest ∧
        SameCells s t ∧ NoAccess s t) ∧
      (op = .div → s.acc = 0 → ∃ t, exec (reservedInstr r f) ⟨p, s⟩ = .next ⟨p, t⟩ ∧
        StoppedBy .divisionByZero s t ∧ NoAccess s t))

/-- R79, R113 (decision D12): an instruction executes as if every field that R79's table marks as ignored
for its opcode were 0. -/
def Obligations.IgnoredFieldsHaveNoEffect : Prop :=
  ∀ (i : Instr) (p : Params) (s : Engine p.vw), exec i ⟨p, s⟩ = exec i.plain ⟨p, s⟩

/-! ### The step -/

/-- 40_step_and_dispatch.md section 1: while the engine runs and its budget lasts, a step is the execution
of the decoded instruction at `pc`, with nothing around it. -/
def Obligations.StepRunsDecodedInstruction : Prop :=
  ∀ (p : Params) (s : Engine p.vw) (w : Word), s.status = .running → ¬ Spent s → s.prog[s.pc]? = some w →
    step ⟨p, s⟩ = exec (decode p w) ⟨p, s⟩

/-- R101 (decision D21): the budget check comes first and leaves everything; without a budget it never
fires; through any run no more than the budget's instructions complete. -/
def Obligations.BudgetCheckCancels : Prop :=
  ∀ (p : Params) (s : Engine p.vw), s.status = .running →
    (∀ b, s.budget = some b → b ≤ s.steps →
      ∃ t, step ⟨p, s⟩ = .next ⟨p, t⟩ ∧ StoppedBy .cancelled s t ∧ NoAccess s t) ∧
    (s.budget = none → ∀ t, step ⟨p, s⟩ = .next ⟨p, t⟩ → t.status ≠ .stopped .cancelled) ∧
    (∀ b, s.budget = some b → s.steps ≤ b → ∀ n t, runFor n ⟨p, s⟩ = ⟨p, t⟩ → t.steps ≤ b)

/-- R102: a `pc` at or beyond `PLEN` stops the run and keeps the out-of-range index. -/
def Obligations.OverrunCheckStops : Prop :=
  ∀ (p : Params) (s : Engine p.vw), s.status = .running → ¬ Spent s → s.prog.length ≤ s.pc →
    ∃ t, step ⟨p, s⟩ = .next ⟨p, t⟩ ∧ StoppedBy .programOverrun s t ∧ NoAccess s t

/-- R104: a fetched word whose opcode number is 21 to 31 and not that of the close opcode stops the run. -/
def Obligations.IllegalOpcodeCheckStops : Prop :=
  ∀ (p : Params) (s : Engine p.vw) (w : Word), s.status = .running → ¬ Spent s → s.prog[s.pc]? = some w →
    21 ≤ w.toNat / 2 ^ 27 →
    (∀ r, s.closeOpcode = some r → (p.number r.opcode).toNat ≠ w.toNat / 2 ^ 27) →
    ∃ t, step ⟨p, s⟩ = .next ⟨p, t⟩ ∧ StoppedBy .illegalOpcode s t ∧ NoAccess s t

/-- R160, R168 (decision D19): exactly which condition each stop has, and so their order. -/
def Obligations.StopCausesExactly : Prop :=
  ∀ (p : Params) (s t : Engine p.vw), s.status = .running → step ⟨p, s⟩ = .next ⟨p, t⟩ →
    (t.status = .stopped .cancelled ↔ Spent s) ∧
    (t.status = .stopped .programOverrun ↔ ¬ Spent s ∧ s.prog.length ≤ s.pc) ∧
    (t.status = .stopped .illegalOpcode ↔
      ∃ r f, Executes p s (reservedInstr r f) ∧ s.closeOpcode ≠ some r) ∧
    (t.status = .stopped .halted ↔ ∃ f, Executes p s (.halt f)) ∧
    (t.status = .stopped .divisionByZero ↔
      (∃ f, Executes p s (.div f) ∧ f.push = false ∧ fetched f s = 0) ∨
      (∃ r f a rest, Executes p s (reservedInstr r f) ∧ s.closeOpcode = some r ∧
        s.es = ⟨.div, a⟩ :: rest ∧ s.acc = 0))

/-- R170 (decision D20): a step that stops the run changes the status and nothing else, in the engine or
in the cells. (The model's record of the port gains the operand read of a stopping DIV, R166, and nothing
else: log entry 6.) -/
def Obligations.StopsChangeOnlyTheStatus : Prop :=
  ∀ (p : Params) (s t : Engine p.vw), step ⟨p, s⟩ = .next ⟨p, t⟩ → t.status ≠ .running →
    t = { s with status := t.status, ports := t.ports } ∧
    (NoAccess s t ∨ ∃ f, Executes p s (.div f) ∧ f.push = false ∧ fetched f s = 0 ∧
      t.status = .stopped .divisionByZero ∧ OneRead f s t)

/-- R171: from a stopped state no step leads to a next state, and a run that has stopped stays as it is. -/
def Obligations.StopIsTerminal : Prop :=
  (∀ s t : State, s.engine.status ≠ .running → step s ≠ .next t) ∧
  (∀ (s : State) (n m : Nat), (runFor n s).engine.status ≠ .running → runFor (n + m) s = runFor n s)

/-- 60_exceptions.md section 1 and 41_load_store.md: where the evaluation stack is unbounded, as by default, a
running engine always has a next state: no operand kind, no address, no flag combination, no stack depth
and no jump target makes a step fail. Where `ES_DEPTH` is a bound (93_implementation_defined.md part 1, log
entry 8), the one step that fails is that of a bracket opened on a full stack, which is stuck, and no step
takes the stack beyond its depth. -/
def Obligations.RunningEngineAlwaysSteps : Prop :=
  (∀ (p : Params) (s : Engine p.vw), s.status = .running → p.esDepth = none →
    ∃ t, step ⟨p, s⟩ = .next ⟨p, t⟩) ∧
  (∀ (p : Params) (s : Engine p.vw), s.status = .running →
    (∀ i, Executes p s i → Fits p i s) → ∃ t, step ⟨p, s⟩ = .next ⟨p, t⟩) ∧
  (∀ (i : Instr) (op : TwoOp) (f : OFields) (p : Params) (s : Engine p.vw), twoOpOf i = some (op, f) →
    f.push = true → ¬ HasRoom p s → exec i ⟨p, s⟩ = .fault .stackFull) ∧
  (∀ (p : Params) (s t : Engine p.vw), s.WithinDepth p → step ⟨p, s⟩ = .next ⟨p, t⟩ → t.WithinDepth p)

/-- R16, R110: where `pc` and `steps` go in a step that does not stop, and that a step that stops leaves
both. -/
def Obligations.PcAndStepCountAfterStep : Prop :=
  (∀ (p : Params) (s t : Engine p.vw), step ⟨p, s⟩ = .next ⟨p, t⟩ → t.status ≠ .running →
    t.steps = s.steps ∧ t.pc = s.pc) ∧
  (∀ (p : Params) (s t : Engine p.vw) (i : Instr), Executes p s i → step ⟨p, s⟩ = .next ⟨p, t⟩ →
    t.status = .running →
    t.steps = s.steps + 1 ∧
    (∀ f, (i = .jmp f ∨ i = .cal f) → Transfers f s.acc → t.pc = f.target.toNat) ∧
    ((∀ f, (i = .jmp f ∨ i = .cal f) → ¬ Transfers f s.acc) → t.pc = s.pc + 1))

/-- R56 (and R14): through any run the program, and with it the other inputs and the configuration, stays
what the host supplied. -/
def Obligations.InputsFixedThroughRun : Prop :=
  ∀ (n : Nat) (p : Params) (s : Engine p.vw), ∃ t : Engine p.vw, runFor n ⟨p, s⟩ = ⟨p, t⟩ ∧ SameInputs s t

/-! ### State and memory -/

/-- R190 (decision D22): reset leaves the values of the table of R34, for every launch; the
accumulator is whatever `ACC_INIT` is. -/
def Obligations.LaunchResetsTheEngine : Prop :=
  ∀ l : Launch, ∃ e : Engine l.params.vw, State.launch l = ⟨l.params, e⟩ ∧
    e.pc = 0 ∧ e.acc = l.accInit ∧ e.es = [] ∧ e.status = .running ∧ e.steps = 0 ∧ e.prog = l.prog ∧
    e.budget = l.budget ∧ e.closeOpcode = l.closeOpcode ∧ e.storage = l.storage ∧ e.mem = l.mem

/-- 20_memory.md section 5 (R58): a new run over the memory an earlier one left starts from reset, and
a read of any key answers what it would have answered at the end of the earlier run, whichever storage
stands behind the port (for a host storage: the same free value, log entry 6). -/
def Obligations.MemoryOutlivesTheRun : Prop :=
  ∀ (p : Params) (s : Engine p.vw) (prog : List Word) (budget : Option Nat) (accInit : Value p.vw)
    (close : Option Reserved),
    ∃ e : Engine p.vw, State.relaunch ⟨p, s⟩ prog budget accInit close = ⟨p, e⟩ ∧
      e.pc = 0 ∧ e.acc = accInit ∧ e.es = [] ∧ e.status = .running ∧ e.steps = 0 ∧
      e.prog = prog ∧ e.budget = budget ∧ e.closeOpcode = close ∧
      (∀ k, stored e k = stored s k) ∧ SameCells s e

/-- R52 (decision D23): one independent cell per key; a read answers what the cell keeps of the last
write; a cell nothing has named holds 0. -/
def Obligations.ReferenceMemoryReadsWhatWasWritten : Prop :=
  ∀ (w : Nat) (k : Key) (v : Value w) (s : Engine w), s.MemoryCanonical → s.storage = .reference →
    (memRead k (memWrite k v s)).1 = (if k.word then v else if v = 0 then 0 else 1) ∧
    (∀ l, l ≠ k → (memRead l (memWrite k v s)).1 = (memRead l s).1) ∧
    (memRead k { s with mem := [] }).1 = 0

/-- R45: every instruction uses the port as the table says, at most once, also when it stops. -/
def Obligations.PortUsedAsTheTableSays : Prop :=
  ∀ (i : Instr) (p : Params) (s t : Engine p.vw), exec i ⟨p, s⟩ = .next ⟨p, t⟩ → PortUse i s t

/-- 10_state.md section 1 and 20_memory.md section 2: only ST, S and R can change a cell, and no
instruction but LD, the boolean, arithmetic and comparison instructions and the close can change the
accumulator. -/
def Obligations.OnlyNamedInstructionsWrite : Prop :=
  ∀ (i : Instr) (p : Params) (s t : Engine p.vw), exec i ⟨p, s⟩ = .next ⟨p, t⟩ →
    ((∀ f, i ≠ .st f ∧ i ≠ .s f ∧ i ≠ .r f) → SameCells s t) ∧
    ((∀ f, i ≠ .ld f ∧ i ≠ .not f) → twoOpOf i = none →
      (∀ r f, i = reservedInstr r f → s.closeOpcode ≠ some r) → t.acc = s.acc)

/-- R28 (decision D14): exactly two operations touch the stack. A two-operand instruction with `push`
pushes the frame of its own opcode and the accumulator; the close pops one frame, unless it stops; every
other execution neither changes the stack nor depends on it; no stop changes it. -/
def Obligations.StackTouchedByOpenAndCloseOnly : Prop :=
  (∀ (i : Instr) (p : Params) (s t : Engine p.vw), exec i ⟨p, s⟩ = .next ⟨p, t⟩ →
    (∀ op f, twoOpOf i = some (op, f) → f.push = true →
      t.es = ⟨op, s.acc⟩ :: s.es ∧ Frame.number p ⟨op, s.acc⟩ = opcodeBits (encode p i)) ∧
    (∀ r f fr rest, i = reservedInstr r f → s.closeOpcode = some r → s.es = fr :: rest →
      ¬ (fr.op = .div ∧ s.acc = 0) → t.es = rest) ∧
    ((∀ op f, twoOpOf i = some (op, f) → f.push = false) →
      (∀ r f, i = reservedInstr r f → s.closeOpcode ≠ some r) →
      t.es = s.es ∧
      ∀ frames, exec i ⟨p, { s with es := frames }⟩ = .next ⟨p, { t with es := frames }⟩)) ∧
  (∀ (p : Params) (s t : Engine p.vw), step ⟨p, s⟩ = .next ⟨p, t⟩ → t.status ≠ .running → t.es = s.es)

/-- 10_state.md section 4 (the spec marks it as derived): with `CLOSE_OPCODE = none` the stack only grows,
in one execution of any instruction and through any run. -/
def Obligations.StackOnlyGrowsWithoutClose : Prop :=
  (∀ (i : Instr) (p : Params) (s t : Engine p.vw), s.closeOpcode = none →
    exec i ⟨p, s⟩ = .next ⟨p, t⟩ → ∃ frames, t.es = frames ++ s.es) ∧
  (∀ (n : Nat) (p : Params) (s t : Engine p.vw), s.closeOpcode = none →
    runFor n ⟨p, s⟩ = ⟨p, t⟩ → ∃ frames, t.es = frames ++ s.es)

/-- 41_load_store.md, family summary, and 20_memory.md section 2: only an instruction that reads its operand
depends on the reference memory, and through that operand's cell alone; what an instruction does to the
engine and the port is the same over any cells that agree there. (A bracket on a full stack is stuck over
either, log entry 8.) -/
def Obligations.OutcomeDependsOnOneCell : Prop :=
  ∀ (i : Instr) (p : Params) (s : Engine p.vw) (m : Memory p.vw),
    (∀ f, readerOf i = some f →
      Engine.cell { s with mem := m } (operandKey f) = s.cell (operandKey f)) →
    (Fits p i s → ∃ t u : Engine p.vw,
      exec i ⟨p, s⟩ = .next ⟨p, t⟩ ∧ exec i ⟨p, { s with mem := m }⟩ = .next ⟨p, u⟩ ∧
      u.pc = t.pc ∧ u.acc = t.acc ∧ u.es = t.es ∧ u.status = t.status ∧ u.steps = t.steps ∧
      u.ports = t.ports) ∧
    (¬ Fits p i s →
      exec i ⟨p, s⟩ = .fault .stackFull ∧ exec i ⟨p, { s with mem := m }⟩ = .fault .stackFull)

/-- 45_control.md, targets outside the program (the spec marks R156 as derived): a taken transfer to an
index at or beyond `PLEN` completes, and the next step stops with `ProgramOverrun` there. -/
def Obligations.TransferOutsideProgramOverrunsNext : Prop :=
  ∀ (p : Params) (s : Engine p.vw) (f : JFields), (Executes p s (.jmp f) ∨ Executes p s (.cal f)) →
    Transfers f s.acc →
    s.prog.length ≤ f.target.toNat →
    ∃ t, step ⟨p, s⟩ = .next ⟨p, t⟩ ∧ CompletedAt f.target.toNat s t ∧
      (¬ Spent t → ∃ u, step ⟨p, t⟩ = .next ⟨p, u⟩ ∧ StoppedBy .programOverrun t u)

/-! ### Invariants -/

/-- The reference memory keeps its canonical form (the model's own invariant, log entry 5). -/
def Obligations.StepKeepsMemoryCanonical : Prop :=
  ∀ (p : Params) (s t : Engine p.vw), s.MemoryCanonical → step ⟨p, s⟩ = .next ⟨p, t⟩ → t.MemoryCanonical

/-- 20_memory.md section 4: a discrete cell that holds 0 or 1 goes on holding 0 or 1. -/
def Obligations.StepKeepsDiscreteCellsBoolean : Prop :=
  ∀ (p : Params) (s t : Engine p.vw), s.MemoryCanonical → s.DiscreteCellsBoolean →
    step ⟨p, s⟩ = .next ⟨p, t⟩ → t.DiscreteCellsBoolean

/-- 10_state.md section 2 (the spec marks it as derived): `pc ≤ max(PLEN, 2^25 - 1)` is kept. -/
def Obligations.StepKeepsPcBounded : Prop :=
  ∀ (p : Params) (s t : Engine p.vw), s.PcBounded → step ⟨p, s⟩ = .next ⟨p, t⟩ → t.PcBounded

/-- 40_step_and_dispatch.md section 1: no more than `BUDGET` instructions complete. -/
def Obligations.StepKeepsWithinBudget : Prop :=
  ∀ (p : Params) (s t : Engine p.vw), s.WithinBudget → step ⟨p, s⟩ = .next ⟨p, t⟩ → t.WithinBudget

/-- The four invariants hold at every launch: the bound of `pc` and the budget always, the canonical form and
the discrete cells where the cells the host supplies meet them. They hold at `State.reset`, whose program
and cells are the model's choice (log entries 2 and 5). -/
def Obligations.InvariantsHoldAtLaunch : Prop :=
  (∀ l : Launch, ∃ e : Engine l.params.vw, State.launch l = ⟨l.params, e⟩ ∧
    e.PcBounded ∧ e.WithinBudget ∧ (l.mem.wf = true → e.MemoryCanonical) ∧
    ((∀ k : Key, k.word = false → l.mem.read k.index = 0 ∨ l.mem.read k.index = 1) →
      e.DiscreteCellsBoolean)) ∧
  ∃ e : Engine Params.default.vw, State.reset = ⟨Params.default, e⟩ ∧
    e.MemoryCanonical ∧ e.DiscreteCellsBoolean ∧ e.PcBounded ∧ e.WithinBudget
end

