-- ==== Sys2Proof/Laws/Codec.lean ====
section
/-! SUPPORT. The codec: the opcode numbering of a configuration is a bijection, the bits of an encoded word, and the fields read
back from them. -/

namespace Sys2Proof

/-- What a legal configuration lists (R5). -/
theorem Params.valid_iff (p : Params) :
    0 < p.vw ∧ Opcode.defined.Perm p.opc ∧ OperandKind.all.Perm p.kind ∧
      ByteOrder.littleEndian.Perm p.blobOrder := by
  have h := p.ok
  simp only [Params.valid, Bool.and_eq_true, decide_eq_true_eq, List.isPerm_iff] at h
  exact ⟨h.1.1.1, h.1.1.2, h.1.2, h.2⟩

theorem Params.vw_pos (p : Params) : 0 < p.vw := p.valid_iff.1

theorem Params.opc_length (p : Params) : p.opc.length = 21 := by
  rw [← p.valid_iff.2.1.length_eq]; rfl

theorem Params.opc_nodup (p : Params) : p.opc.Nodup :=
  p.valid_iff.2.1.nodup_iff.mp (by decide)

theorem Params.mem_opc (p : Params) {o : Opcode} : o ∈ p.opc ↔ o ∈ Opcode.defined :=
  p.valid_iff.2.1.mem_iff.symm

theorem Opcode.reserved?_opcode (r : Reserved) : r.opcode.reserved? = some r := by
  cases r <;> decide

theorem Opcode.reserved?_eq_none {o : Opcode} : o.reserved? = none ↔ o ∈ Opcode.defined := by
  cases o <;> decide

theorem Opcode.reserved?_eq_some {o : Opcode} {r : Reserved} (h : o.reserved? = some r) : r.opcode = o := by
  revert h; cases o <;> cases r <;> decide

theorem Reserved.le_number (r : Reserved) : 21 ≤ r.number.toNat := by
  cases r <;> decide

theorem Reserved.ofNumber_number (r : Reserved) : Reserved.ofNumber r.number = r := by
  cases r <;> decide

theorem Reserved.number_ofNumber {n : BitVec 5} (h : 21 ≤ n.toNat) : (Reserved.ofNumber n).number = n := by
  revert h; revert n; decide

/-- A reserved opcode has the same number in every configuration (R5, R77). -/
@[simp] theorem Params.number_reserved (p : Params) (r : Reserved) : p.number r.opcode = r.number := by
  simp only [Params.number, Opcode.reserved?_opcode]

/-- A defined opcode's number is its place in `opc`. -/
theorem Params.toNat_number (p : Params) {o : Opcode} (h : o ∈ Opcode.defined) :
    (p.number o).toNat = p.opc.idxOf o ∧ p.opc.idxOf o < 21 := by
  have hl : p.opc.idxOf o < 21 := by
    rw [← p.opc_length]; exact List.idxOf_lt_length_of_mem (p.mem_opc.mpr h)
  refine ⟨?_, hl⟩
  simp only [Params.number, Opcode.reserved?_eq_none.mpr h, BitVec.toNat_ofNat]
  omega

/-- The entry a number below 21 selects. -/
theorem Params.opcode_of_lt (p : Params) {n : BitVec 5} (h : n.toNat < p.opc.length) :
    p.opcode n = p.opc[n.toNat] := by
  simp only [Params.opcode, List.getElem?_eq_getElem h]

/-- The entry a number from 21 on selects. -/
theorem Params.opcode_of_le (p : Params) {n : BitVec 5} (h : 21 ≤ n.toNat) :
    p.opcode n = (Reserved.ofNumber n).opcode := by
  simp only [Params.opcode, List.getElem?_eq_none (p.opc_length ▸ h : p.opc.length ≤ n.toNat)]

theorem Params.opcode_number (p : Params) (o : Opcode) : p.opcode (p.number o) = o := by
  cases h : o.reserved? with
  | none =>
    have ho := Opcode.reserved?_eq_none.mp h
    obtain ⟨h1, h2⟩ := p.toNat_number ho
    have hl : (p.number o).toNat < p.opc.length := by rw [h1, p.opc_length]; exact h2
    rw [p.opcode_of_lt hl]
    simp only [h1, List.getElem_idxOf]
  | some r =>
    rw [← Opcode.reserved?_eq_some h, p.number_reserved, p.opcode_of_le r.le_number, Reserved.ofNumber_number]

theorem Params.number_opcode (p : Params) (n : BitVec 5) : p.number (p.opcode n) = n := by
  by_cases h : n.toNat < 21
  · have hl : n.toNat < p.opc.length := by rw [p.opc_length]; exact h
    have hm := p.mem_opc.mp (List.getElem_mem hl)
    apply BitVec.eq_of_toNat_eq
    rw [p.opcode_of_lt hl, (p.toNat_number hm).1, p.opc_nodup.idxOf_getElem]
  · rw [p.opcode_of_le (by omega), p.number_reserved, Reserved.number_ofNumber (by omega)]

theorem Params.number_injective (p : Params) {a b : Opcode} (h : p.number a = p.number b) : a = b := by
  rw [← p.opcode_number a, h, p.opcode_number b]

/-- The number is that of JMP or CAL exactly for those two opcodes (R61). -/
theorem isJump_number (p : Params) (o : Opcode) :
    isJump p (p.number o) = (o == .jmp || o == .cal) := by
  have h : ∀ a, (p.number o == p.number a) = (o == a) := by
    intro a
    by_cases ha : o = a
    · simp [ha]
    · have : p.number o ≠ p.number a := fun e => ha (p.number_injective e)
      rw [beq_eq_false_iff_ne.mpr this, beq_eq_false_iff_ne.mpr ha]
  simp only [isJump, h]

theorem TwoOp.opcode_injective {o p : TwoOp} (h : o.opcode = p.opcode) : o = p := by
  revert h; cases o <;> cases p <;> decide

theorem Reserved.opcode_injective {o p : Reserved} (h : o.opcode = p.opcode) : o = p := by
  revert h; cases o <;> cases p <;> decide

/-- The opcodes above 20 are the reserved ones (R77). -/
theorem Params.reserved_of_number (p : Params) {o : Opcode} (h : 21 ≤ (p.number o).toNat) :
    ∃ r : Reserved, r.opcode = o := by
  refine ⟨Reserved.ofNumber (p.number o), ?_⟩
  rw [← p.opcode_of_le h, p.opcode_number]

@[simp] theorem instrOf_opcode (o : Opcode) (w : Word) : (instrOf o w).opcode = o := by
  cases o <;> rfl

@[simp] theorem decode_opcode (p : Params) (w : Word) : (decode p w).opcode = p.opcode (opcodeBits w) :=
  instrOf_opcode _ _

/-- The instruction a word decodes to has the word's decoded record (R71). -/
theorem fields_decode (p : Params) (w : Word) : (decode p w).fields p = decodeFields p w := by
  have key : ∀ o : Opcode, (instrOf o w).fields p =
      if o == .jmp || o == .cal then .j (p.number o) (jFields w) else .o (p.number o) (oFields w) := by
    intro o; cases o <;> rfl
  rw [decode, key, ← isJump_number p, p.number_opcode, decodeFields]

/-- The opcode number of an instruction's record is that of its row. -/
theorem fields_opcode (p : Params) (i : Instr) : (i.fields p).opcode = p.number i.opcode := by
  cases i <;> rfl

/-- An instruction's record is well formed (R67). -/
theorem fields_wf (p : Params) (i : Instr) : (i.fields p).wf p = true := by
  cases i <;> simp only [Instr.fields, Fields.wf, isJump_number] <;> rfl

theorem getLsbD_placeBits {n : Nat} (b : BitVec n) (lo : Nat) {i : Nat} (h : i < 32) :
    (placeBits b lo).getLsbD i = (decide (lo ≤ i) && b.getLsbD (i - lo)) := by
  have h3 : i - lo < 32 := by omega
  by_cases h2 : lo ≤ i
  · have h4 : ¬ (i < lo) := by omega
    simp only [placeBits, BitVec.getLsbD_shiftLeft, BitVec.getLsbD_setWidth, h, h2, h3, h4,
      decide_true, decide_false, Bool.not_false, Bool.true_and]
  · have h4 : i < lo := by omega
    simp only [placeBits, BitVec.getLsbD_shiftLeft, h2, h4, decide_true, decide_false, Bool.not_true,
      Bool.and_false, Bool.false_and]

theorem getLsbD_placeFlag (b : Bool) (lo : Nat) {i : Nat} (h : i < 32) :
    (placeFlag b lo).getLsbD i = (decide (i = lo) && b) := by
  rw [placeFlag, getLsbD_placeBits _ _ h, BitVec.getLsbD_ofBool]
  by_cases h1 : i = lo
  · subst h1; simp
  · by_cases h2 : lo ≤ i
    · have : ¬ (i - lo = 0) := by omega
      simp [h1, this]
    · simp [h1, h2]

/-- One bit of an encoded format-O word (R68). -/
theorem getLsbD_encode_o (n : BitVec 5) (f : OFields) {i : Nat} (h : i < 32) :
    (encodeFields (.o n f)).getLsbD i =
      (decide (27 ≤ i) && n.getLsbD (i - 27) || decide (i = 26) && f.cond ||
        decide (i = 25) && f.negateInstr || decide (i = 24) && f.push || decide (i = 23) && f.ret ||
        decide (i = 22) && f.word || decide (i = 21) && f.negateArg ||
        decide (16 ≤ i) && f.kind.getLsbD (i - 16) || decide (8 ≤ i) && f.byte.getLsbD (i - 8) ||
        f.bit.getLsbD i) := by
  simp only [encodeFields, BitVec.getLsbD_or, getLsbD_placeBits _ _ h, getLsbD_placeFlag _ _ h,
    Nat.zero_le, decide_true, Bool.true_and, Nat.sub_zero]

/-- One bit of an encoded format-J word (R69). -/
theorem getLsbD_encode_j (n : BitVec 5) (f : JFields) {i : Nat} (h : i < 32) :
    (encodeFields (.j n f)).getLsbD i =
      (decide (27 ≤ i) && n.getLsbD (i - 27) || decide (i = 26) && f.cond ||
        decide (i = 25) && f.negateInstr || f.target.getLsbD i) := by
  simp only [encodeFields, BitVec.getLsbD_or, getLsbD_placeBits _ _ h, getLsbD_placeFlag _ _ h,
    Nat.zero_le, decide_true, Bool.true_and, Nat.sub_zero]

theorem getLsbD_slice (w : Word) (hi lo i : Nat) :
    (w.slice hi lo).getLsbD i = (decide (i < hi - lo + 1) && w.getLsbD (lo + i)) := by
  simp only [Word.slice, BitVec.getLsbD_extractLsb]

theorem opcodeBits_encode_o (n : BitVec 5) (f : OFields) : opcodeBits (encodeFields (.o n f)) = n := by
  apply BitVec.eq_of_getLsbD_eq
  intro i hi
  rw [opcodeBits, getLsbD_slice, getLsbD_encode_o n f (by omega)]
  interval_cases i <;> simp

theorem opcodeBits_encode_j (n : BitVec 5) (f : JFields) : opcodeBits (encodeFields (.j n f)) = n := by
  apply BitVec.eq_of_getLsbD_eq
  intro i hi
  rw [opcodeBits, getLsbD_slice, getLsbD_encode_j n f (by omega)]
  interval_cases i <;> simp

theorem kindBits_encode_o (n : BitVec 5) (f : OFields) : kindBits (encodeFields (.o n f)) = f.kind := by
  apply BitVec.eq_of_getLsbD_eq
  intro i hi
  rw [kindBits, getLsbD_slice, getLsbD_encode_o n f (by omega)]
  interval_cases i <;> simp

theorem byteBits_encode_o (n : BitVec 5) (f : OFields) : byteBits (encodeFields (.o n f)) = f.byte := by
  apply BitVec.eq_of_getLsbD_eq
  intro i hi
  rw [byteBits, getLsbD_slice, getLsbD_encode_o n f (by omega)]
  interval_cases i <;> simp

theorem bitBits_encode_o (n : BitVec 5) (f : OFields) : bitBits (encodeFields (.o n f)) = f.bit := by
  apply BitVec.eq_of_getLsbD_eq
  intro i hi
  rw [bitBits, getLsbD_slice, getLsbD_encode_o n f (by omega)]
  interval_cases i <;> simp

theorem jumpTargetBits_encode_j (n : BitVec 5) (f : JFields) :
    jumpTargetBits (encodeFields (.j n f)) = f.target := by
  apply BitVec.eq_of_getLsbD_eq
  intro i hi
  rw [jumpTargetBits, getLsbD_slice, getLsbD_encode_j n f (by omega)]
  interval_cases i <;> simp

/-- The format-O fields of an encoded word are the record's. -/
theorem oFields_encode_o (n : BitVec 5) (f : OFields) : oFields (encodeFields (.o n f)) = f := by
  have hflag : ∀ m, 21 ≤ m → m ≤ 26 → (encodeFields (.o n f)).bit m =
      (decide (m = 26) && f.cond || decide (m = 25) && f.negateInstr || decide (m = 24) && f.push ||
        decide (m = 23) && f.ret || decide (m = 22) && f.word || decide (m = 21) && f.negateArg) := by
    intro m h1 h2
    rw [Word.bit, getLsbD_encode_o n f (by omega)]
    interval_cases m <;> simp
  cases f
  simp only [oFields, hflag, Nat.reduceLeDiff, Nat.le_refl, kindBits_encode_o, byteBits_encode_o, bitBits_encode_o]
  simp

/-- The format-J fields of an encoded word are the record's. -/
theorem jFields_encode_j (n : BitVec 5) (f : JFields) : jFields (encodeFields (.j n f)) = f := by
  have hflag : ∀ m, 25 ≤ m → m ≤ 26 → (encodeFields (.j n f)).bit m =
      (decide (m = 26) && f.cond || decide (m = 25) && f.negateInstr) := by
    intro m h1 h2
    rw [Word.bit, getLsbD_encode_j n f (by omega)]
    interval_cases m <;> simp
  cases f
  simp only [jFields, hflag, Nat.reduceLeDiff, Nat.le_refl, jumpTargetBits_encode_j]
  simp

/-- The table's mask (R76) leaves exactly the opcode bits. -/
theorem and_mask (w : Word) : w &&& 0xF8000000#32 = placeBits (opcodeBits w) 27 := by
  apply BitVec.eq_of_getLsbD_eq
  intro i hi
  rw [getLsbD_placeBits _ _ hi, opcodeBits, getLsbD_slice, BitVec.getLsbD_and]
  interval_cases i <;> simp

/-- The opcode bits of an encoded instruction are its row's number. -/
theorem opcodeBits_encode (p : Params) (i : Instr) : opcodeBits (encode p i) = p.number i.opcode := by
  rw [encode, ← fields_opcode]
  cases h : i.fields p with
  | o n f => rw [opcodeBits_encode_o]; rfl
  | j n f => rw [opcodeBits_encode_j]; rfl

/-- The base words of the table (R76). -/
def Opcode.baseWord : Opcode → Word
  | .ld => 0x00000000#32
  | .st => 0x08000000#32
  | .s => 0x10000000#32
  | .r => 0x18000000#32
  | .and => 0x20000000#32
  | .or => 0x28000000#32
  | .xor => 0x30000000#32
  | .not => 0x38000000#32
  | .add => 0x40000000#32
  | .sub => 0x48000000#32
  | .mul => 0x50000000#32
  | .div => 0x58000000#32
  | .gt => 0x60000000#32
  | .ge => 0x68000000#32
  | .eq => 0x70000000#32
  | .ne => 0x78000000#32
  | .le => 0x80000000#32
  | .lt => 0x88000000#32
  | .jmp => 0x90000000#32
  | .cal => 0x98000000#32
  | .halt => 0xA0000000#32
  | .res21 => 0xA8000000#32
  | .res22 => 0xB0000000#32
  | .res23 => 0xB8000000#32
  | .res24 => 0xC0000000#32
  | .res25 => 0xC8000000#32
  | .res26 => 0xD0000000#32
  | .res27 => 0xD8000000#32
  | .res28 => 0xE0000000#32
  | .res29 => 0xE8000000#32
  | .res30 => 0xF0000000#32
  | .res31 => 0xF8000000#32

theorem Opcode.placeBits_number (o : Opcode) : placeBits (Params.default.number o) 27 = o.baseWord := by
  cases o <;> decide

/-- An instruction's word under the table's mask is its row's base word (R76). -/
theorem encode_mask (i : Instr) : encode Params.default i &&& 0xF8000000#32 = i.opcode.baseWord := by
  rw [and_mask, opcodeBits_encode, Opcode.placeBits_number]

end Sys2Proof
end

