-- ==== Sys2Proof/Laws/State.lean ====
section
/-! SUPPORT. One lemma per field per update of the state, true by unfolding, for simp. -/

namespace Sys2Proof.Machine

variable {w : Nat} (s : Engine w)

@[simp] theorem put_params (s : State) (e : Engine s.params.vw) : (s.put e).params = s.params := rfl
@[simp] theorem put_engine (s : State) (e : Engine s.params.vw) : (s.put e).engine = e := rfl
@[simp] theorem on_params (s : State) (g : Engine s.params.vw → Engine s.params.vw) :
    (s.on g).params = s.params := rfl
@[simp] theorem on_engine (s : State) (g : Engine s.params.vw → Engine s.params.vw) :
    (s.on g).engine = g s.engine := rfl

/-- `on` at a state given by its parts. -/
theorem on_mk (p : Params) (e : Engine p.vw) (g : Engine p.vw → Engine p.vw) :
    State.on ⟨p, e⟩ g = ⟨p, g e⟩ := rfl

@[simp] theorem setAcc_pc (v : Value w) : (setAcc v s).pc = s.pc := rfl
@[simp] theorem setAcc_acc (v : Value w) : (setAcc v s).acc = v := rfl
@[simp] theorem setAcc_es (v : Value w) : (setAcc v s).es = s.es := rfl
@[simp] theorem setAcc_status (v : Value w) : (setAcc v s).status = s.status := rfl
@[simp] theorem setAcc_steps (v : Value w) : (setAcc v s).steps = s.steps := rfl
@[simp] theorem setAcc_prog (v : Value w) : (setAcc v s).prog = s.prog := rfl
@[simp] theorem setAcc_budget (v : Value w) : (setAcc v s).budget = s.budget := rfl
@[simp] theorem setAcc_closeOpcode (v : Value w) : (setAcc v s).closeOpcode = s.closeOpcode := rfl
@[simp] theorem setAcc_storage (v : Value w) : (setAcc v s).storage = s.storage := rfl
@[simp] theorem setAcc_mem (v : Value w) : (setAcc v s).mem = s.mem := rfl
@[simp] theorem setAcc_ports (v : Value w) : (setAcc v s).ports = s.ports := rfl

@[simp] theorem setStack_pc (fs : List (Frame w)) : (setStack fs s).pc = s.pc := rfl
@[simp] theorem setStack_acc (fs : List (Frame w)) : (setStack fs s).acc = s.acc := rfl
@[simp] theorem setStack_es (fs : List (Frame w)) : (setStack fs s).es = fs := rfl
@[simp] theorem setStack_status (fs : List (Frame w)) : (setStack fs s).status = s.status := rfl
@[simp] theorem setStack_steps (fs : List (Frame w)) : (setStack fs s).steps = s.steps := rfl
@[simp] theorem setStack_prog (fs : List (Frame w)) : (setStack fs s).prog = s.prog := rfl
@[simp] theorem setStack_budget (fs : List (Frame w)) : (setStack fs s).budget = s.budget := rfl
@[simp] theorem setStack_closeOpcode (fs : List (Frame w)) : (setStack fs s).closeOpcode = s.closeOpcode := rfl
@[simp] theorem setStack_storage (fs : List (Frame w)) : (setStack fs s).storage = s.storage := rfl
@[simp] theorem setStack_mem (fs : List (Frame w)) : (setStack fs s).mem = s.mem := rfl
@[simp] theorem setStack_ports (fs : List (Frame w)) : (setStack fs s).ports = s.ports := rfl

@[simp] theorem complete_pc (n : Nat) : (complete n s).pc = n := rfl
@[simp] theorem complete_acc (n : Nat) : (complete n s).acc = s.acc := rfl
@[simp] theorem complete_es (n : Nat) : (complete n s).es = s.es := rfl
@[simp] theorem complete_status (n : Nat) : (complete n s).status = s.status := rfl
@[simp] theorem complete_steps (n : Nat) : (complete n s).steps = s.steps + 1 := rfl
@[simp] theorem complete_prog (n : Nat) : (complete n s).prog = s.prog := rfl
@[simp] theorem complete_budget (n : Nat) : (complete n s).budget = s.budget := rfl
@[simp] theorem complete_closeOpcode (n : Nat) : (complete n s).closeOpcode = s.closeOpcode := rfl
@[simp] theorem complete_storage (n : Nat) : (complete n s).storage = s.storage := rfl
@[simp] theorem complete_mem (n : Nat) : (complete n s).mem = s.mem := rfl
@[simp] theorem complete_ports (n : Nat) : (complete n s).ports = s.ports := rfl

@[simp] theorem advance_pc : (advance s).pc = s.pc + 1 := rfl
@[simp] theorem advance_acc : (advance s).acc = s.acc := rfl
@[simp] theorem advance_es : (advance s).es = s.es := rfl
@[simp] theorem advance_status : (advance s).status = s.status := rfl
@[simp] theorem advance_steps : (advance s).steps = s.steps + 1 := rfl
@[simp] theorem advance_prog : (advance s).prog = s.prog := rfl
@[simp] theorem advance_budget : (advance s).budget = s.budget := rfl
@[simp] theorem advance_closeOpcode : (advance s).closeOpcode = s.closeOpcode := rfl
@[simp] theorem advance_storage : (advance s).storage = s.storage := rfl
@[simp] theorem advance_mem : (advance s).mem = s.mem := rfl
@[simp] theorem advance_ports : (advance s).ports = s.ports := rfl

@[simp] theorem raise_pc (x : Stop) : (raise x s).pc = s.pc := rfl
@[simp] theorem raise_acc (x : Stop) : (raise x s).acc = s.acc := rfl
@[simp] theorem raise_es (x : Stop) : (raise x s).es = s.es := rfl
@[simp] theorem raise_status (x : Stop) : (raise x s).status = .stopped x := rfl
@[simp] theorem raise_steps (x : Stop) : (raise x s).steps = s.steps := rfl
@[simp] theorem raise_prog (x : Stop) : (raise x s).prog = s.prog := rfl
@[simp] theorem raise_budget (x : Stop) : (raise x s).budget = s.budget := rfl
@[simp] theorem raise_closeOpcode (x : Stop) : (raise x s).closeOpcode = s.closeOpcode := rfl
@[simp] theorem raise_storage (x : Stop) : (raise x s).storage = s.storage := rfl
@[simp] theorem raise_mem (x : Stop) : (raise x s).mem = s.mem := rfl
@[simp] theorem raise_ports (x : Stop) : (raise x s).ports = s.ports := rfl

@[simp] theorem memRead_value (k : Key) : (memRead k s).1 = portAnswer k s := rfl
@[simp] theorem memRead_pc (k : Key) : (memRead k s).2.pc = s.pc := rfl
@[simp] theorem memRead_acc (k : Key) : (memRead k s).2.acc = s.acc := rfl
@[simp] theorem memRead_es (k : Key) : (memRead k s).2.es = s.es := rfl
@[simp] theorem memRead_status (k : Key) : (memRead k s).2.status = s.status := rfl
@[simp] theorem memRead_steps (k : Key) : (memRead k s).2.steps = s.steps := rfl
@[simp] theorem memRead_prog (k : Key) : (memRead k s).2.prog = s.prog := rfl
@[simp] theorem memRead_budget (k : Key) : (memRead k s).2.budget = s.budget := rfl
@[simp] theorem memRead_closeOpcode (k : Key) : (memRead k s).2.closeOpcode = s.closeOpcode := rfl
@[simp] theorem memRead_storage (k : Key) : (memRead k s).2.storage = s.storage := rfl
@[simp] theorem memRead_mem (k : Key) : (memRead k s).2.mem = s.mem := rfl
@[simp] theorem memRead_ports (k : Key) : (memRead k s).2.ports = PortEvent.read k (portAnswer k s) :: s.ports := rfl

@[simp] theorem opnd_value (f : OFields) : (opnd f s).1 = negIf f.negateArg (portAnswer (keyOf f) s) := rfl
@[simp] theorem opnd_pc (f : OFields) : (opnd f s).2.pc = s.pc := rfl
@[simp] theorem opnd_acc (f : OFields) : (opnd f s).2.acc = s.acc := rfl
@[simp] theorem opnd_es (f : OFields) : (opnd f s).2.es = s.es := rfl
@[simp] theorem opnd_status (f : OFields) : (opnd f s).2.status = s.status := rfl
@[simp] theorem opnd_steps (f : OFields) : (opnd f s).2.steps = s.steps := rfl
@[simp] theorem opnd_prog (f : OFields) : (opnd f s).2.prog = s.prog := rfl
@[simp] theorem opnd_budget (f : OFields) : (opnd f s).2.budget = s.budget := rfl
@[simp] theorem opnd_closeOpcode (f : OFields) : (opnd f s).2.closeOpcode = s.closeOpcode := rfl
@[simp] theorem opnd_storage (f : OFields) : (opnd f s).2.storage = s.storage := rfl
@[simp] theorem opnd_mem (f : OFields) : (opnd f s).2.mem = s.mem := rfl
@[simp] theorem opnd_ports (f : OFields) : (opnd f s).2.ports = PortEvent.read (keyOf f) (portAnswer (keyOf f) s) :: s.ports := rfl

@[simp] theorem memWrite_pc (k : Key) (v : Value w) : (memWrite k v s).pc = s.pc := rfl
@[simp] theorem memWrite_acc (k : Key) (v : Value w) : (memWrite k v s).acc = s.acc := rfl
@[simp] theorem memWrite_es (k : Key) (v : Value w) : (memWrite k v s).es = s.es := rfl
@[simp] theorem memWrite_status (k : Key) (v : Value w) : (memWrite k v s).status = s.status := rfl
@[simp] theorem memWrite_steps (k : Key) (v : Value w) : (memWrite k v s).steps = s.steps := rfl
@[simp] theorem memWrite_prog (k : Key) (v : Value w) : (memWrite k v s).prog = s.prog := rfl
@[simp] theorem memWrite_budget (k : Key) (v : Value w) : (memWrite k v s).budget = s.budget := rfl
@[simp] theorem memWrite_closeOpcode (k : Key) (v : Value w) : (memWrite k v s).closeOpcode = s.closeOpcode := rfl
@[simp] theorem memWrite_storage (k : Key) (v : Value w) : (memWrite k v s).storage = s.storage := rfl
@[simp] theorem memWrite_ports (k : Key) (v : Value w) : (memWrite k v s).ports = PortEvent.write k v :: s.ports := rfl
@[simp] theorem writeOperand_pc (f : OFields) (v : Value w) : (writeOperand f v s).pc = s.pc := rfl
@[simp] theorem writeOperand_acc (f : OFields) (v : Value w) : (writeOperand f v s).acc = s.acc := rfl
@[simp] theorem writeOperand_es (f : OFields) (v : Value w) : (writeOperand f v s).es = s.es := rfl
@[simp] theorem writeOperand_status (f : OFields) (v : Value w) : (writeOperand f v s).status = s.status := rfl
@[simp] theorem writeOperand_steps (f : OFields) (v : Value w) : (writeOperand f v s).steps = s.steps := rfl
@[simp] theorem writeOperand_prog (f : OFields) (v : Value w) : (writeOperand f v s).prog = s.prog := rfl
@[simp] theorem writeOperand_budget (f : OFields) (v : Value w) : (writeOperand f v s).budget = s.budget := rfl
@[simp] theorem writeOperand_closeOpcode (f : OFields) (v : Value w) : (writeOperand f v s).closeOpcode = s.closeOpcode := rfl
@[simp] theorem writeOperand_storage (f : OFields) (v : Value w) : (writeOperand f v s).storage = s.storage := rfl
@[simp] theorem writeOperand_ports (f : OFields) (v : Value w) : (writeOperand f v s).ports = PortEvent.write (keyOf f) v :: s.ports := rfl

/-- A write reaches the cells of the reference memory only when that is the storage. -/
theorem memWrite_mem_reference (k : Key) (v : Value w) (h : s.storage = .reference) :
    (memWrite k v s).mem = s.mem.write k.index (kept k v) := by
  simp [memWrite, h]

/-- A write to a host storage leaves the cells of the reference memory. -/
theorem memWrite_mem_host (k : Key) (v : Value w) (h : s.storage ≠ .reference) :
    (memWrite k v s).mem = s.mem := by
  cases hs : s.storage with
  | reference => exact absurd hs h
  | host tag past => simp [memWrite, hs]

/-- Two states with the same listed cells read the same at every key. -/
theorem cell_of_mem_eq {s t : Engine w} (h : t.mem = s.mem) (k : Key) : t.cell k = s.cell k := by
  simp [Engine.cell, h]

end Sys2Proof.Machine
end

