-- ==== Sys2Proof/Laws/Memory.lean ====
section
/-! SUPPORT. The reference memory: what a read answers after a write, the canonical form, and that
different keys have different cells. -/

namespace Sys2Proof

theorem Key.index_lt (k : Key) : k.index < 2 ^ 22 := by
  have h1 := k.kind.isLt
  have h2 := k.addr.isLt
  have h3 : k.word.toNat ≤ 1 := Bool.toNat_le k.word
  simp only [Key.index]
  omega

/-- No aliasing (R52): the number of a key determines the key. -/
theorem Key.index_injective {k l : Key} (h : k.index = l.index) : k = l := by
  obtain ⟨kk, kw, ka⟩ := k
  obtain ⟨lk, lw, la⟩ := l
  have h1 := kk.isLt
  have h2 := ka.isLt
  have h3 := lk.isLt
  have h4 := la.isLt
  have h5 : kw.toNat ≤ 1 := Bool.toNat_le kw
  have h6 : lw.toNat ≤ 1 := Bool.toNat_le lw
  simp only [Key.index] at h
  have hk : kk.toNat = lk.toNat := by omega
  have hw : kw.toNat = lw.toNat := by omega
  have ha : ka.toNat = la.toNat := by omega
  have hw' : kw = lw := by
    cases kw <;> cases lw <;> simp_all
  rw [BitVec.eq_of_toNat_eq hk, hw', BitVec.eq_of_toNat_eq ha]

namespace Machine

variable {w : Nat}

/-- A canonical list from `lo` on reads as not listed below `lo`. -/
theorem Memory.read_below {m : Memory w} {lo i : Nat} (h : m.wfFrom lo = true) (hi : i < lo) :
    m.read i = Memory.unlisted := by
  induction m generalizing lo with
  | nil => rfl
  | cons c rest ih =>
    obtain ⟨j, u⟩ := c
    simp only [Memory.wfFrom, Bool.and_eq_true, decide_eq_true_eq] at h
    rw [Memory.read, if_neg (by omega)]
    exact ih h.2 (by omega)

/-- The canonical form from a number on is one from every lower number on. -/
theorem Memory.wfFrom_mono {m : Memory w} {lo hi : Nat} (h : m.wfFrom hi = true) (hl : lo ≤ hi) :
    m.wfFrom lo = true := by
  cases m with
  | nil => rfl
  | cons c rest =>
    obtain ⟨j, u⟩ := c
    simp only [Memory.wfFrom, Bool.and_eq_true, decide_eq_true_eq] at h ⊢
    exact ⟨⟨⟨by omega, h.1.1.2⟩, h.1.2⟩, h.2⟩

/-- A write leaves every other cell, in any list. -/
theorem Memory.read_write_other (m : Memory w) {i j : Nat} (v : Value w) (h : j ≠ i) :
    (m.write i v).read j = m.read j := by
  induction m with
  | nil =>
    by_cases hv : v = Memory.unlisted <;> simp [Memory.write, Memory.read, hv, h]
  | cons c rest ih =>
    obtain ⟨k, u⟩ := c
    simp only [Memory.write]
    split_ifs with h1 h2 h3 h4
    · rfl
    · simp [Memory.read, h]
    · subst h3; simp [Memory.read, h]
    · subst h3; simp [Memory.read, h]
    · simp [Memory.read, ih]

/-- A canonical memory answers a read with the value last written. -/
theorem Memory.read_write_same_from {m : Memory w} {lo i : Nat} (v : Value w) (h : m.wfFrom lo = true) :
    (m.write i v).read i = v := by
  induction m generalizing lo with
  | nil =>
    by_cases hv : v = Memory.unlisted <;> simp [Memory.write, Memory.read, hv]
  | cons c rest ih =>
    obtain ⟨k, u⟩ := c
    simp only [Memory.wfFrom, Bool.and_eq_true, decide_eq_true_eq] at h
    simp only [Memory.write]
    split_ifs with h1 h2 h3 h4
    · rw [h2, Memory.read, if_neg (by omega)]
      exact Memory.read_below h.2 (by omega)
    · simp [Memory.read]
    · rw [h4]
      exact Memory.read_below h.2 (by omega)
    · simp [Memory.read]
    · rw [Memory.read, if_neg h3]
      exact ih h.2

theorem Memory.read_write_same {m : Memory w} {i : Nat} (v : Value w) (h : m.wf = true) :
    (m.write i v).read i = v :=
  Memory.read_write_same_from v h

theorem Memory.wfFrom_write {m : Memory w} {lo i : Nat} (v : Value w) (h : m.wfFrom lo = true)
    (hlo : lo ≤ i) (hi : i < 2 ^ 22) : (m.write i v).wfFrom lo = true := by
  induction m generalizing lo with
  | nil =>
    by_cases hv : v = Memory.unlisted
    · simp [Memory.write, Memory.wfFrom, hv]
    · simp only [Memory.write, if_neg hv, Memory.wfFrom, Bool.and_eq_true, decide_eq_true_eq]
      exact ⟨⟨⟨hlo, hi⟩, hv⟩, trivial⟩
  | cons c rest ih =>
    obtain ⟨k, u⟩ := c
    have h' := h
    simp only [Memory.wfFrom, Bool.and_eq_true, decide_eq_true_eq] at h
    simp only [Memory.write]
    split_ifs with h1 h2 h3 h4
    · exact h'
    · simp only [Memory.wfFrom, Bool.and_eq_true, decide_eq_true_eq]
      exact ⟨⟨⟨hlo, hi⟩, h2⟩, ⟨⟨⟨by omega, h.1.1.2⟩, h.1.2⟩, h.2⟩⟩
    · exact Memory.wfFrom_mono h.2 (by omega)
    · simp only [Memory.wfFrom, Bool.and_eq_true, decide_eq_true_eq]
      exact ⟨⟨⟨hlo, hi⟩, h4⟩, by subst h3; exact h.2⟩
    · simp only [Memory.wfFrom, Bool.and_eq_true, decide_eq_true_eq]
      exact ⟨h.1, ih h.2 (by omega)⟩

/-- A write keeps the canonical form. -/
theorem Memory.wf_write {m : Memory w} {i : Nat} (v : Value w) (h : m.wf = true) (hi : i < 2 ^ 22) :
    (m.write i v).wf = true :=
  Memory.wfFrom_write v h (Nat.zero_le i) hi

/-- `MemWrite` keeps the canonical form, whichever storage stands behind the port. -/
theorem memWrite_keeps_wf (k : Key) (v : Value w) (s : Engine w) (h : s.mem.wf = true) :
    (memWrite k v s).mem.wf = true := by
  by_cases hs : s.storage = .reference
  · rw [memWrite_mem_reference s k v hs]
    exact Memory.wf_write _ h k.index_lt
  · rw [memWrite_mem_host s k v hs]
    exact h

/-- `MemRead` changes no cell. -/
theorem memRead_keeps_wf (k : Key) (s : Engine w) (h : s.mem.wf = true) :
    (memRead k s).2.mem.wf = true := h

/-- After `MemWrite` the reference memory's other cells read as before, whatever the storage. -/
theorem memWrite_cell_other {k l : Key} (v : Value w) (s : Engine w) (h : l ≠ k) :
    (memWrite k v s).cell l = s.cell l := by
  by_cases hs : s.storage = .reference
  · simp only [Engine.cell, memWrite_mem_reference s k v hs]
    exact Memory.read_write_other _ _ (fun e => h (Key.index_injective e))
  · simp only [Engine.cell, memWrite_mem_host s k v hs]

/-- After `MemWrite` the reference memory's cell holds what it keeps of the value. -/
theorem memWrite_cell_same {k : Key} (v : Value w) (s : Engine w) (h : s.mem.wf = true)
    (hs : s.storage = .reference) : (memWrite k v s).cell k = kept k v := by
  simp only [Engine.cell, memWrite_mem_reference s k v hs]
  exact Memory.read_write_same _ h

theorem reset_mem_wf : State.reset.engine.mem.wf = true := rfl

end Machine

end Sys2Proof
end

