-- ==== Sys2Proof/Laws/Values.lean ====
section
/-! SUPPORT. The boolean reading and the arithmetic of values, in terms of integers and equations. -/

namespace Sys2Proof.Machine

variable {w : Nat}

theorem truth_iff (v : Value w) : truth v = true ↔ v ≠ 0 := by simp [truth]

theorem truth_false_iff (v : Value w) : truth v = false ↔ v = 0 := by simp [truth]

theorem b2v_eq_ite (p : Prop) [Decidable p] : (b2v (decide p) : Value w) = if p then 1 else 0 := by
  by_cases h : p <;> simp [b2v, h]

theorem neg_eq_ite (v : Value w) : neg v = if v = 0 then 1 else 0 := by
  by_cases h : v = 0 <;> simp [neg, b2v, truth, h]

/-- True and false differ as values, since a value has a bit at least. -/
theorem one_ne_zero_of_pos (hw : 0 < w) : (1 : Value w) ≠ 0 := by
  intro h
  have := congrArg BitVec.toNat h
  have h2 : 1 < 2 ^ w := Nat.one_lt_two_pow (by omega)
  simp [BitVec.toNat_ofNat, Nat.mod_eq_of_lt h2] at this

theorem b2v_ne_zero_iff (hw : 0 < w) (b : Bool) : (b2v b : Value w) ≠ 0 ↔ b = true := by
  cases b <;> simp [b2v, hw.ne']

theorem kept_discrete (k : Key) (v : Value w) (h : k.word = false) :
    kept k v = 0 ∨ kept k v = 1 := by
  simp only [kept, h, b2v]
  cases truth v <;> simp

/-- `wrap(n)` reads as `n` modulo `2^VW`, taken in the signed range. -/
theorem sval_wrap (n : Int) : sval (wrap n : Value w) = n.bmod (2 ^ w) := by
  simp only [sval, wrap, BitVec.toInt_ofInt]

theorem bmod_modEq (n : Int) : n.bmod (2 ^ w) ≡ n [ZMOD 2 ^ w] := by
  have h : n.bmod (2 ^ w) % ((2 ^ w : Nat) : Int) = n % ((2 ^ w : Nat) : Int) := Int.bmod_emod
  exact_mod_cast h

/-- R130's division is Lean's division truncating toward zero. -/
theorem tdiv_eq (n d : Int) : tdiv n d = Int.tdiv n d := by
  have key : ∀ a b : Nat, tdiv (a : Int) (b : Int) = Int.tdiv a b := by
    intro a b
    rcases Nat.eq_zero_or_pos a with rfl | ha
    · simp [tdiv]
    rcases Nat.eq_zero_or_pos b with rfl | hb
    · simp [tdiv]
    simp [tdiv, Int.sign_eq_one_of_pos, ha, hb]
  obtain ⟨a, rfl | rfl⟩ := n.eq_nat_or_neg <;> obtain ⟨b, rfl | rfl⟩ := d.eq_nat_or_neg
  · exact key a b
  · rw [Int.tdiv_neg, ← key]; simp [tdiv]
  · rw [Int.neg_tdiv, ← key]; simp [tdiv]
  · rw [Int.tdiv_neg, Int.neg_tdiv, neg_neg, ← key]; simp [tdiv]

@[simp] theorem narrow_wrapping (n : Int) : (narrow .wrapping n : Value w) = wrap n := rfl
@[simp] theorem quotient_truncated (n d : Int) : quotient .truncated n d = tdiv n d := rfl
@[simp] theorem reading_signed (v : Value w) : reading .signed v = sval v := rfl
@[simp] theorem combine_logical (g : Bool → Bool → Bool) (h : Value w → Value w → Value w) (a x : Value w) :
    combine .logical g h a x = b2v (g (truth a) (truth x)) := rfl

/-- Where an operator has a result it is the one of the configured laws (R108). -/
theorem alu_of_result {laws : AluLaws} {op : TwoOp} {a x : Value w} (h : ¬ (op = .div ∧ x = 0)) :
    alu laws op a x = some (aluResult laws op a x) := by
  rw [alu, if_neg h]

end Sys2Proof.Machine
end

