-- ==== Sys2Proof/Laws/Ops.lean ====
section
/-! SUPPORT. One lemma per shared operation, saying once everything it can do, and the agreement of the
operations with the terms of Safety. -/

namespace Sys2Proof.Machine

variable {w : Nat}

theorem keyOf_eq (f : OFields) : keyOf f = operandKey f := rfl

theorem portAnswer_eq (k : Key) (s : Engine w) : portAnswer k s = stored s k := rfl

theorem negIf_eq_fetched (f : OFields) (s : Engine w) :
    negIf f.negateArg (portAnswer (keyOf f) s) = fetched f s := by
  simp only [negIf, fetched, neg_eq_ite]; rfl

/-- `opnd` returns the operand's value and changes nothing but the record of the port. -/
theorem opnd_spec (f : OFields) (s : Engine w) :
    (opnd f s).1 = fetched f s ∧
      (opnd f s).2 =
        { s with ports := .read (operandKey f) (stored s (operandKey f)) :: s.ports } :=
  ⟨negIf_eq_fetched f s, rfl⟩

theorem kept_eq_keptOf (k : Key) (v : Value w) : kept k v = keptOf k v := by
  by_cases h : k.word = true <;> by_cases hv : v = 0 <;> simp [kept, keptOf, b2v, truth, h, hv]

/-- A completed state continues at the given index, with the inputs of the state it came from. -/
theorem advance_completed {s s' : Engine w} (hpc : s'.pc = s.pc) (hst : s'.steps = s.steps)
    (hs : s'.status = s.status) (hi : SameInputs s s') : CompletedAt (s.pc + 1) s (advance s') := by
  refine ⟨by simp [hpc], by simp [hst], by simp [hs], ?_⟩
  exact hi

theorem sameInputs_refl (s : Engine w) : SameInputs s s := ⟨rfl, rfl, rfl, rfl⟩

theorem sameCells_of_mem {s t : Engine w} (h : t.mem = s.mem) : SameCells s t := cell_of_mem_eq h

/-- A stop changes the status and nothing else (R170). -/
theorem raise_stopped (why : Stop) (s : Engine w) : StoppedBy why s (raise why s) :=
  ⟨rfl, rfl, rfl, rfl, rfl, sameInputs_refl s, fun _ => rfl⟩

/-- Everything a write to the operand does. -/
theorem writeOperand_spec (f : OFields) (v : Value w) (s : Engine w) (h : s.mem.wf = true) :
    WroteOperand f v s (writeOperand f v s) := by
  refine ⟨rfl, fun k hk => memWrite_cell_other v s hk, fun hs => ?_, fun hs k => ?_⟩
  · rw [← kept_eq_keptOf]
    exact memWrite_cell_same v s h hs
  · exact cell_of_mem_eq (memWrite_mem_host s _ v hs) k

/-- Only DIV by zero has no result, whatever the laws (R108, R130). -/
theorem alu_none_iff (laws : AluLaws) (op : TwoOp) (a x : Value w) :
    alu laws op a x = none ↔ op = .div ∧ x = 0 := by
  simp [alu]

variable (laws : AluLaws)

/-- The template of R109: it completes, with the operator applied or the frame opened, unless it is an
unbracketed DIV by zero, which stops the run after the operand's read. -/
theorem twoOperand_cases (op : TwoOp) (f : OFields) (s : Engine w) :
    (∃ t, twoOperand laws op f s = t ∧
      AppliedOrOpened laws op True f s t ∧ t.mem = s.mem) ∨
    (f.push = false ∧ op = .div ∧ fetched f s = 0 ∧
      twoOperand laws op f s = raise .divisionByZero (opnd f s).2) := by
  by_cases hp : f.push = true
  · refine Or.inl ⟨advance (setAcc (opnd f s).1 (setStack (⟨op, s.acc⟩ :: s.es) (opnd f s).2)),
      by simp [twoOperand, hp], ⟨?_, fun _ => rfl, rfl, ?_, ?_⟩, rfl⟩
    · exact advance_completed rfl rfl rfl (sameInputs_refl s)
    · intro h; simp [h] at hp
    · intro _; exact ⟨rfl, negIf_eq_fetched f s⟩
  · have hp' : f.push = false := by simpa using hp
    cases ha : alu laws op s.acc (fetched f s) with
    | none =>
      have := (alu_none_iff laws op _ _).mp ha
      refine Or.inr ⟨hp', this.1, this.2, ?_⟩
      simp [twoOperand, hp', negIf_eq_fetched, ha]
    | some r =>
      refine Or.inl ⟨advance (setAcc r (opnd f s).2), by simp [twoOperand, hp', negIf_eq_fetched, ha],
        ⟨?_, fun _ => rfl, rfl, ?_, ?_⟩, rfl⟩
      · exact advance_completed rfl rfl rfl (sameInputs_refl s)
      · intro _; exact ⟨rfl, by simpa using ha, fun _ => trivial⟩
      · intro h; simp [h] at hp'

/-- The close operation (R114): no frame, a frame whose operator has a result, or a pending DIV by zero. -/
theorem closeBracket_cases (s : Engine w) :
    (s.es = [] ∧ closeBracket laws s = advance s) ∨
    (∃ fr rest r, s.es = fr :: rest ∧ alu laws fr.op fr.acc s.acc = some r ∧
      closeBracket laws s = advance (setAcc r (setStack rest s))) ∨
    (∃ fr rest, s.es = fr :: rest ∧ fr.op = .div ∧ s.acc = 0 ∧
      closeBracket laws s = raise .divisionByZero s) := by
  cases he : s.es with
  | nil => exact Or.inl ⟨rfl, by simp [closeBracket, he]⟩
  | cons fr rest =>
    cases ha : alu laws fr.op fr.acc s.acc with
    | none =>
      have := (alu_none_iff laws fr.op _ _).mp ha
      exact Or.inr (Or.inr ⟨fr, rest, rfl, this.1, this.2, by simp [closeBracket, he, ha]⟩)
    | some r => exact Or.inr (Or.inl ⟨fr, rest, r, rfl, ha, by simp [closeBracket, he, ha]⟩)

end Sys2Proof.Machine
end

