-- ==== Sys2Proof/Laws/Exec.lean ====
section
/-! SUPPORT. Said once: what any instruction can do, and what any step can do. -/

namespace Sys2Proof.Machine

variable {w : Nat}

/-- What every completed instruction has in common. -/
structure Completes (s t : Engine w) : Prop where
  steps : t.steps = s.steps + 1
  status : t.status = s.status
  inputs : SameInputs s t
  pc : t.pc = s.pc + 1 ∨ ∃ g : BitVec 25, t.pc = g.toNat
  mem : t.mem = s.mem ∨ ∃ k v, t.mem = (memWrite k v s).mem
  es : t.es = s.es ∨ (∃ fr, t.es = fr :: s.es) ∨ (s.closeOpcode ≠ none ∧ ∃ fr, s.es = fr :: t.es)
  ports : t.ports = s.ports ∨ ∃ e, t.ports = e :: s.ports

/-- What every stop raised by an instruction has in common: only the status and, after an operand's read,
the record of the port differ. -/
structure Stops (why : Stop) (s t : Engine w) : Prop where
  state : t = { raise why s with ports := t.ports }
  ports : t.ports = s.ports ∨ ∃ e, t.ports = e :: s.ports
  cause : why = .halted ∨ why = .divisionByZero ∨ why = .illegalOpcode

/-- What any outcome of an instruction is: a completed state or a stop. -/
def Outcome (s t : Engine w) : Prop := Completes s t ∨ ∃ why, Stops why s t

/-- The instruction answers a next state of the same configuration, completed or stopped. -/
def Answers (p : Params) (s : Engine p.vw) (r : Result) : Prop :=
  ∃ t : Engine p.vw, r = .next ⟨p, t⟩ ∧ Outcome s t

theorem twoOperand_outcome (laws : AluLaws) (op : TwoOp) (f : OFields) (s : Engine w) :
    Outcome s (twoOperand laws op f s) := by
  rcases twoOperand_cases laws op f s with ⟨t, ht, ⟨hc, _, hr, hn, hp⟩, hm⟩ | ⟨_, _, _, ht⟩ <;> rw [ht]
  · refine Or.inl ⟨hc.2.1, hc.2.2.1, hc.2.2.2, Or.inl hc.1, Or.inl hm, ?_, Or.inr ⟨_, hr⟩⟩
    cases h : f.push with
    | false => exact Or.inl (hn h).1
    | true => exact Or.inr (Or.inl ⟨_, (hp h).1⟩)
  · exact Or.inr ⟨_, rfl, Or.inr ⟨_, rfl⟩, Or.inr (Or.inl rfl)⟩

/-- A state that has only advanced is completed. -/
theorem advance_outcome (s : Engine w) : Outcome s (advance s) :=
  Or.inl ⟨rfl, rfl, sameInputs_refl s, Or.inl rfl, Or.inl rfl, Or.inl rfl, Or.inl rfl⟩

/-- A state whose accumulator is set, and that has advanced, is completed. -/
theorem setAcc_outcome (v : Value w) (s : Engine w) : Outcome s (advance (setAcc v s)) :=
  Or.inl ⟨rfl, rfl, sameInputs_refl s, Or.inl rfl, Or.inl rfl, Or.inl rfl, Or.inl rfl⟩

/-- A state whose operand is written, and that has advanced, is completed. -/
theorem write_outcome (f : OFields) (v : Value w) (s : Engine w) :
    Outcome s (advance (writeOperand f v s)) :=
  Or.inl ⟨rfl, rfl, sameInputs_refl s, Or.inl rfl, Or.inr ⟨_, _, rfl⟩, Or.inl rfl, Or.inr ⟨_, rfl⟩⟩

/-- A write that depends on a condition (S, R). -/
theorem condWrite_outcome (c : Bool) (f : OFields) (v : Value w) (s : Engine w) :
    Outcome s (advance (if c then writeOperand f v s else s)) := by
  cases c
  · exact advance_outcome s
  · exact write_outcome f v s

theorem load_outcome (f : OFields) (s : Engine w) :
    Outcome s (advance (setAcc (opnd f s).1 (opnd f s).2)) :=
  Or.inl ⟨rfl, rfl, sameInputs_refl s, Or.inl rfl, Or.inl rfl, Or.inl rfl, Or.inr ⟨_, rfl⟩⟩

theorem transferPc_cases (f : JFields) (s : Engine w) :
    transferPc f s = s.pc + 1 ∨ ∃ g : BitVec 25, transferPc f s = g.toNat := by
  by_cases h : taken f s.acc = true
  · exact Or.inr ⟨f.target, by rw [transferPc, if_pos h]⟩
  · exact Or.inl (by rw [transferPc, if_neg h])

theorem transfer_outcome (f : JFields) (s : Engine w) : Outcome s (complete (transferPc f s) s) :=
  Or.inl ⟨rfl, rfl, sameInputs_refl s, transferPc_cases f s, Or.inl rfl, Or.inl rfl, Or.inl rfl⟩

theorem closeBracket_outcome (laws : AluLaws) (s : Engine w) (h : s.closeOpcode ≠ none) :
    Outcome s (closeBracket laws s) := by
  rcases closeBracket_cases laws s with ⟨_, hc⟩ | ⟨fr, rest, r, he, _, hc⟩ | ⟨_, _, _, _, _, hc⟩ <;> rw [hc]
  · exact advance_outcome s
  · exact Or.inl ⟨rfl, rfl, sameInputs_refl s, Or.inl rfl, Or.inl rfl, Or.inr (Or.inr ⟨h, fr, he⟩),
      Or.inl rfl⟩
  · exact Or.inr ⟨_, rfl, Or.inl rfl, Or.inr (Or.inl rfl)⟩

theorem reserved_outcome (laws : AluLaws) (r : Reserved) (s : Engine w) : Outcome s (reserved laws r s) := by
  by_cases h : s.closeOpcode = some r
  · rw [reserved, if_pos h]
    exact closeBracket_outcome laws s (by simp [h])
  · rw [reserved, if_neg h]
    exact Or.inr ⟨_, rfl, Or.inl rfl, Or.inr (Or.inr rfl)⟩

/-- A stack is full where it has no room (U13). -/
theorem stackFull_iff (p : Params) (s : Engine w) : stackFull p.esDepth s = true ↔ ¬ HasRoom p s := by
  cases h : p.esDepth <;> simp [stackFull, HasRoom, h]

/-- The thirteen two-operand instructions share one meaning (R109). -/
theorem exec_eq_twoOperand {i : Instr} {op : TwoOp} {f : OFields} (h : twoOpOf i = some (op, f)) (s : State) :
    exec i s = execTwoOperand op f s := by
  cases i <;> simp only [twoOpOf, Option.some.injEq, Prod.mk.injEq, reduceCtorEq] at h <;>
    (obtain ⟨rfl, rfl⟩ := h; rfl)

/-- A two-operand instruction that opens no bracket, or has room for its frame, is the template (R109). -/
theorem exec_of_twoOp {i : Instr} {op : TwoOp} {f : OFields} (h : twoOpOf i = some (op, f)) (p : Params)
    (s : Engine p.vw) (hr : f.push = true → HasRoom p s) :
    exec i ⟨p, s⟩ = .next ⟨p, twoOperand p.alu op f s⟩ := by
  rw [exec_eq_twoOperand h, execTwoOperand, if_neg, on_mk]
  simp only [Bool.and_eq_true, stackFull_iff, not_and, not_not]
  exact hr

/-- A bracket that overflows a bounded stack is stuck (U13). -/
theorem exec_of_full {i : Instr} {op : TwoOp} {f : OFields} (h : twoOpOf i = some (op, f)) (p : Params)
    (s : Engine p.vw) (hp : f.push = true) (hr : ¬ HasRoom p s) :
    exec i ⟨p, s⟩ = .fault .stackFull := by
  rw [exec_eq_twoOperand h, execTwoOperand, if_pos]
  simp only [Bool.and_eq_true, stackFull_iff]
  exact ⟨hp, hr⟩

/-- What an instruction that is no two-operand one can do. -/
theorem exec_answers_of_none {i : Instr} (h : twoOpOf i = none) (p : Params) (s : Engine p.vw) :
    Answers p s (exec i ⟨p, s⟩) := by
  cases i with
  | ld f => exact ⟨_, rfl, load_outcome f s⟩
  | st f => exact ⟨_, rfl, write_outcome f _ s⟩
  | s f => exact ⟨_, rfl, condWrite_outcome _ f 1 s⟩
  | r f => exact ⟨_, rfl, condWrite_outcome _ f 0 s⟩
  | not _ => exact ⟨_, rfl, setAcc_outcome _ s⟩
  | jmp f => exact ⟨_, rfl, transfer_outcome f s⟩
  | cal f => exact ⟨_, rfl, transfer_outcome f s⟩
  | halt _ => exact ⟨_, rfl, Or.inr ⟨_, rfl, Or.inl rfl, Or.inl rfl⟩⟩
  | res21 _ => exact ⟨_, rfl, reserved_outcome p.alu .res21 s⟩
  | res22 _ => exact ⟨_, rfl, reserved_outcome p.alu .res22 s⟩
  | res23 _ => exact ⟨_, rfl, reserved_outcome p.alu .res23 s⟩
  | res24 _ => exact ⟨_, rfl, reserved_outcome p.alu .res24 s⟩
  | res25 _ => exact ⟨_, rfl, reserved_outcome p.alu .res25 s⟩
  | res26 _ => exact ⟨_, rfl, reserved_outcome p.alu .res26 s⟩
  | res27 _ => exact ⟨_, rfl, reserved_outcome p.alu .res27 s⟩
  | res28 _ => exact ⟨_, rfl, reserved_outcome p.alu .res28 s⟩
  | res29 _ => exact ⟨_, rfl, reserved_outcome p.alu .res29 s⟩
  | res30 _ => exact ⟨_, rfl, reserved_outcome p.alu .res30 s⟩
  | res31 _ => exact ⟨_, rfl, reserved_outcome p.alu .res31 s⟩
  | _ => cases h

/-- What any instruction can do that opens no bracket, or has room for its frame. -/
theorem exec_answers (i : Instr) (p : Params) (s : Engine p.vw) (hf : Fits p i s) :
    Answers p s (exec i ⟨p, s⟩) := by
  cases h : twoOpOf i with
  | none => exact exec_answers_of_none h p s
  | some c => exact ⟨_, exec_of_twoOp h p s (hf _ _ h), twoOperand_outcome p.alu c.1 c.2 s⟩

/-- What any instruction can do: the outcome above, or be stuck at a full stack. -/
theorem exec_cases (i : Instr) (p : Params) (s : Engine p.vw) :
    (Fits p i s ∧ Answers p s (exec i ⟨p, s⟩)) ∨ (¬ Fits p i s ∧ exec i ⟨p, s⟩ = .fault .stackFull) := by
  by_cases hf : Fits p i s
  · exact Or.inl ⟨hf, exec_answers i p s hf⟩
  · refine Or.inr ⟨hf, ?_⟩
    simp only [Fits, not_forall] at hf
    obtain ⟨op, f, h, hp, hr⟩ := hf
    exact exec_of_full h p s hp hr

/-- An instruction that answers a next state has the outcome above. -/
theorem outcome_of_next {i : Instr} {p : Params} {s t : Engine p.vw} (h : exec i ⟨p, s⟩ = .next ⟨p, t⟩) :
    Fits p i s ∧ Outcome s t := by
  rcases exec_cases i p s with ⟨hf, u, hu, ho⟩ | ⟨_, hu⟩ <;> rw [h] at hu
  · cases hu
    exact ⟨hf, ho⟩
  · cases hu

/-- A two-operand instruction has the opcode of its operator. -/
theorem opcode_of_twoOp {i : Instr} {op : TwoOp} {f : OFields} (h : twoOpOf i = some (op, f)) :
    i.opcode = op.opcode := by
  cases i <;> simp only [twoOpOf, Option.some.injEq, Prod.mk.injEq, reduceCtorEq] at h <;>
    (obtain ⟨rfl, rfl⟩ := h; rfl)

/-- The eleven reserved opcodes share one operation (R104, R115). -/
theorem exec_reservedInstr (r : Reserved) (f : OFields) (p : Params) (s : Engine p.vw) :
    exec (reservedInstr r f) ⟨p, s⟩ = .next ⟨p, reserved p.alu r s⟩ := by
  cases r <;> rfl

theorem reservedInstr_opcode (r : Reserved) (f : OFields) : (reservedInstr r f).opcode = r.opcode := by
  cases r <;> rfl

/-- An instruction with a reserved opcode is the reserved instruction of that name. -/
theorem eq_reservedInstr {i : Instr} {r : Reserved} (h : i.opcode = r.opcode) :
    ∃ f, i = reservedInstr r f := by
  cases i <;> cases r <;>
    first
    | exact ⟨_, rfl⟩
    | exact absurd h (by simp [Instr.opcode, Reserved.opcode])

/-- The instructions by what they share: eight of their own kind, the two-operand ones, the reserved ones. -/
theorem instr_kinds (i : Instr) :
    (∃ f, i = .ld f) ∨ (∃ f, i = .st f) ∨ (∃ f, i = .s f) ∨ (∃ f, i = .r f) ∨ (∃ f, i = .not f) ∨
    (∃ f, i = .jmp f) ∨ (∃ f, i = .cal f) ∨ (∃ f, i = .halt f) ∨
    (∃ op f, twoOpOf i = some (op, f)) ∨ (∃ r f, i = reservedInstr r f) := by
  cases h : i.opcode.reserved? with
  | some r =>
    obtain ⟨f, hf⟩ := eq_reservedInstr (Opcode.reserved?_eq_some h).symm
    simp only [hf]
    tauto
  | none =>
    cases i <;> simp [twoOpOf] <;>
      exact absurd h (by simp only [Instr.opcode]; decide)

theorem fetch_eq (s : Engine w) (h : s.pc < s.prog.length) : fetch s = some s.prog[s.pc] := by
  simp [fetch, h]

theorem fetch_none_iff (s : Engine w) : fetch s = none ↔ s.prog.length ≤ s.pc := by
  simp [fetch]

theorem budgetSpent_iff (s : Engine w) : budgetSpent s = true ↔ ∃ b, s.budget = some b ∧ b ≤ s.steps := by
  cases h : s.budget <;> simp [budgetSpent, h]

variable {p : Params} {s : Engine p.vw}

theorem step_of_stopped {why : Stop} (h : s.status = .stopped why) :
    step ⟨p, s⟩ = .fault (.stopped why) := by
  simp [step, h]

theorem step_of_spent (h : s.status = .running) (hb : budgetSpent s = true) :
    step ⟨p, s⟩ = .next ⟨p, raise .cancelled s⟩ := by
  simp [step, h, hb, on_mk]

theorem step_of_overrun (h : s.status = .running) (hb : budgetSpent s = false)
    (hf : fetch s = none) : step ⟨p, s⟩ = .next ⟨p, raise .programOverrun s⟩ := by
  simp [step, h, hb, hf, on_mk]

theorem step_of_fetch {x : Word} (h : s.status = .running) (hb : budgetSpent s = false)
    (hf : fetch s = some x) : step ⟨p, s⟩ = exec (decode p x) ⟨p, s⟩ := by
  simp [step, h, hb, hf]

/-- What any step can do: nothing at a stopped state; else one of the two checks, or the instruction. -/
theorem step_cases (p : Params) (s : Engine p.vw) :
    (∃ why, s.status = .stopped why ∧ step ⟨p, s⟩ = .fault (.stopped why)) ∨
    (s.status = .running ∧ budgetSpent s = true ∧ step ⟨p, s⟩ = .next ⟨p, raise .cancelled s⟩) ∨
    (s.status = .running ∧ budgetSpent s = false ∧ fetch s = none ∧
      step ⟨p, s⟩ = .next ⟨p, raise .programOverrun s⟩) ∨
    (∃ x, s.status = .running ∧ budgetSpent s = false ∧ fetch s = some x ∧
      step ⟨p, s⟩ = exec (decode p x) ⟨p, s⟩) := by
  cases h : s.status with
  | stopped why => exact Or.inl ⟨why, rfl, step_of_stopped h⟩
  | running =>
    cases hb : budgetSpent s with
    | true => exact Or.inr (Or.inl ⟨rfl, rfl, step_of_spent h hb⟩)
    | false =>
      cases hf : fetch s with
      | none => exact Or.inr (Or.inr (Or.inl ⟨rfl, rfl, rfl, step_of_overrun h hb hf⟩))
      | some x => exact Or.inr (Or.inr (Or.inr ⟨x, rfl, rfl, rfl, step_of_fetch h hb hf⟩))

/-- The word `withFetchWord` places is the one the next step fetches. -/
theorem fetch_withFetchWord (s : State) (nbits w : Nat) :
    fetch (s.withFetchWord nbits w).engine = some (BitVec.ofNat 32 (w % 2 ^ nbits)) := by
  have h : s.engine.pc <
      (s.engine.prog ++ List.replicate (s.engine.pc + 1 - s.engine.prog.length) (0 : Word)).length := by
    simp; omega
  simp only [fetch, State.withFetchWord, State.on, State.put, placeWord]
  rw [List.getElem?_set_self h]

theorem budgetSpent_withFetchWord (s : State) (nbits w : Nat) :
    budgetSpent (s.withFetchWord nbits w).engine = false := by
  have hb : (s.withFetchWord nbits w).engine.budget =
      if budgetSpent s.engine then none else s.engine.budget := rfl
  cases h : budgetSpent s.engine with
  | true =>
    have he : (s.withFetchWord nbits w).engine.budget = none := by simp [hb, h]
    simp [budgetSpent, he]
  | false =>
    have he : (s.withFetchWord nbits w).engine.budget = s.engine.budget := by simp [hb, h]
    rw [budgetSpent, he]
    exact h

/-- The next step after `withFetchWord` runs exactly the placed instruction. -/
theorem step_withFetchWord (s : State) (nbits w : Nat) :
    step (s.withFetchWord nbits w) =
      exec (decode s.params (BitVec.ofNat 32 (w % 2 ^ nbits))) (s.withFetchWord nbits w) :=
  step_of_fetch rfl (budgetSpent_withFetchWord s nbits w) (fetch_withFetchWord s nbits w)

end Sys2Proof.Machine
end

