-- ==== Sys2Proof/Machine/Loader.lean ====
section
/-! DEFINITION. A program serialised as bytes and read back, in the configured `BLOB_ORDER` (R46, U14). It is a
loader's work, before a run: the engine fetches whole words, and nothing it does depends on this file. -/

namespace Sys2Proof

/-- The configuration with another byte order. -/
def Params.withBlobOrder (p : Params) (o : ByteOrder)
    (h : Params.valid p.vw p.opc p.kind o = true) : Params :=
  { p with blobOrder := o, ok := h }

/-- The four bytes of a word, in the configured order. -/
def Params.bytesOfWord (p : Params) (x : Word) : List (BitVec 8) :=
  p.blobOrder.map (fun i => x.extractLsb' (8 * i.val) 8)

/-- The program as bytes, "4 bytes per instruction" (R46). -/
def Params.blobOfProgram (p : Params) (prog : List Word) : List (BitVec 8) :=
  prog.flatMap p.bytesOfWord

/-- The byte at place `i` of a word, of the bytes that a blob has for it. -/
def Params.byteAt (p : Params) (bytes : List (BitVec 8)) (i : Fin 4) : BitVec 8 :=
  bytes.getD (p.blobOrder.idxOf i) 0

/-- The word that four bytes in the configured order are. -/
def Params.wordOfBytes (p : Params) (bytes : List (BitVec 8)) : Word :=
  p.byteAt bytes 3 ++ p.byteAt bytes 2 ++ p.byteAt bytes 1 ++ p.byteAt bytes 0

/-- The program a blob holds; `none` for a number of bytes that is no multiple of 4, of which the spec says
nothing (log entry 9). -/
def Params.programOfBlob (p : Params) : List (BitVec 8) → Option (List Word)
  | [] => some []
  | a :: b :: c :: d :: rest => (p.programOfBlob rest).map (fun prog => p.wordOfBytes [a, b, c, d] :: prog)
  | [_] | [_, _] | [_, _, _] => none

end Sys2Proof
end

