-- ==== Sys2Proof/Laws/Loader.lean ====
section
/-! SUPPORT. A serialised program read back in the same byte order is the program, and no step sees that order
(R46). -/

namespace Sys2Proof

theorem Params.blobOrder_perm (p : Params) : ByteOrder.littleEndian.Perm p.blobOrder := p.valid_iff.2.2.2

theorem Params.byteAt_bytesOfWord (p : Params) (x : Word) (i : Fin 4) :
    p.byteAt (p.bytesOfWord x) i = x.extractLsb' (8 * i.val) 8 := by
  have hi : i ∈ p.blobOrder := p.blobOrder_perm.mem_iff.mp (by revert i; decide)
  have hl : p.blobOrder.idxOf i < p.blobOrder.length := List.idxOf_lt_length_of_mem hi
  simp only [Params.byteAt, Params.bytesOfWord, List.getD_eq_getElem?_getD, List.getElem?_map,
    List.getElem?_eq_getElem hl, List.getElem_idxOf, Option.map_some, Option.getD_some]

/-- A word's bytes read back are the word. -/
theorem Params.wordOfBytes_bytesOfWord (p : Params) (x : Word) : p.wordOfBytes (p.bytesOfWord x) = x := by
  simp only [Params.wordOfBytes, Params.byteAt_bytesOfWord]
  refine BitVec.eq_of_getLsbD_eq fun i hi => ?_
  simp only [BitVec.getLsbD_append, BitVec.getLsbD_extractLsb']
  by_cases h0 : i < 8
  · simp [h0]
  by_cases h1 : i < 16
  · simp [h0, show i - 8 < 8 by omega, show 8 + (i - 8) = i by omega]
  by_cases h2 : i < 24
  · simp [h0, show ¬ i - 8 < 8 by omega, show i - 8 - 8 < 8 by omega, show 16 + (i - 8 - 8) = i by omega]
  · simp [h0, show ¬ i - 8 < 8 by omega, show ¬ i - 8 - 8 < 8 by omega, show i - 8 - 8 - 8 < 8 by omega,
      show 24 + (i - 8 - 8 - 8) = i by omega]

theorem Params.bytesOfWord_length (p : Params) (x : Word) : (p.bytesOfWord x).length = 4 := by
  simp only [Params.bytesOfWord, List.length_map, ← p.blobOrder_perm.length_eq]; rfl

/-- A program's bytes read back are the program. -/
theorem Params.programOfBlob_blobOfProgram (p : Params) (prog : List Word) :
    p.programOfBlob (p.blobOfProgram prog) = some prog := by
  induction prog with
  | nil => rfl
  | cons x rest ih =>
    have hx : p.blobOfProgram (x :: rest) = p.bytesOfWord x ++ p.blobOfProgram rest := List.flatMap_cons
    obtain ⟨a, b, c, d, h⟩ := List.length_eq_four.mp (p.bytesOfWord_length x)
    have hw := p.wordOfBytes_bytesOfWord x
    rw [h] at hw
    simp only [hx, h, List.cons_append, List.nil_append, Params.programOfBlob, ih, Option.map_some, hw]

namespace Machine

theorem next_inj {p : Params} {a b : Engine p.vw} :
    (Host.Outcome.next ⟨p, a⟩ : Result) = .next ⟨p, b⟩ ↔ a = b :=
  ⟨fun h => by cases h; rfl, fun h => by rw [h]⟩

/-- The template's outcome is the same in both configurations. -/
theorem execTwoOperand_withBlobOrder (p : Params) (o : ByteOrder)
    (h : Params.valid p.vw p.opc p.kind o = true) (op : TwoOp) (f : OFields) (s t : Engine p.vw) :
    execTwoOperand op f ⟨p.withBlobOrder o h, s⟩ = .next ⟨p.withBlobOrder o h, t⟩ ↔
      execTwoOperand op f ⟨p, s⟩ = .next ⟨p, t⟩ := by
  cases hf : f.push && stackFull p.esDepth s with
  | true =>
    have h1 : execTwoOperand op f ⟨p, s⟩ = .fault .stackFull := if_pos hf
    have h2 : execTwoOperand op f ⟨p.withBlobOrder o h, s⟩ = .fault .stackFull := if_pos hf
    rw [h1, h2]
    constructor <;> intro e <;> cases e
  | false =>
    have hn : ¬ (f.push && stackFull p.esDepth s) = true := by rw [hf]; exact Bool.false_ne_true
    have h1 : execTwoOperand op f ⟨p, s⟩ = .next ⟨p, twoOperand p.alu op f s⟩ := if_neg hn
    have h2 : execTwoOperand op f ⟨p.withBlobOrder o h, s⟩ =
        .next ⟨p.withBlobOrder o h, twoOperand p.alu op f s⟩ := if_neg hn
    rw [h1, h2]
    exact (next_inj (p := p.withBlobOrder o h)).trans (next_inj (p := p)).symm

/-- No instruction sees the byte order (R46). -/
theorem exec_withBlobOrder (p : Params) (o : ByteOrder) (h : Params.valid p.vw p.opc p.kind o = true)
    (i : Instr) (s t : Engine p.vw) :
    exec i ⟨p.withBlobOrder o h, s⟩ = .next ⟨p.withBlobOrder o h, t⟩ ↔ exec i ⟨p, s⟩ = .next ⟨p, t⟩ := by
  cases i <;>
    first
    | exact execTwoOperand_withBlobOrder p o h _ _ s t
    | exact (next_inj (p := p.withBlobOrder o h)).trans (next_inj (p := p)).symm

/-- No step sees the byte order (R46). -/
theorem step_withBlobOrder (p : Params) (o : ByteOrder) (h : Params.valid p.vw p.opc p.kind o = true)
    (s t : Engine p.vw) :
    step ⟨p.withBlobOrder o h, s⟩ = .next ⟨p.withBlobOrder o h, t⟩ ↔ step ⟨p, s⟩ = .next ⟨p, t⟩ := by
  cases hs : s.status with
  | stopped why =>
    rw [step_of_stopped hs, step_of_stopped (p := p.withBlobOrder o h) hs]
    constructor <;> intro e <;> cases e
  | running =>
    cases hb : budgetSpent s with
    | true =>
      rw [step_of_spent hs hb, step_of_spent (p := p.withBlobOrder o h) hs hb]
      exact (next_inj (p := p.withBlobOrder o h)).trans (next_inj (p := p)).symm
    | false =>
      cases hf : fetch s with
      | none =>
        rw [step_of_overrun hs hb hf, step_of_overrun (p := p.withBlobOrder o h) hs hb hf]
        exact (next_inj (p := p.withBlobOrder o h)).trans (next_inj (p := p)).symm
      | some x =>
        rw [step_of_fetch hs hb hf, step_of_fetch (p := p.withBlobOrder o h) hs hb hf]
        exact exec_withBlobOrder p o h _ s t

end Machine

end Sys2Proof
end

