-- ==== Sys2Proof/Laws/PerInstr.lean ====
section
/-! SUPPORT. Statements for all instructions, one lemma per constructor of Instr. -/

namespace Sys2Proof.Laws.OpcodeInWord

/-- The top five bits of an instruction's word are its row's opcode number (R76), in every
configuration and whatever its fields. -/
def Statement (i : Instr) : Prop :=
  ∀ p : Params, opcodeBits (encode p i) = p.number i.opcode

theorem ld (f : OFields) : Statement (.ld f) := fun p => opcodeBits_encode p _
theorem st (f : OFields) : Statement (.st f) := fun p => opcodeBits_encode p _
theorem s (f : OFields) : Statement (.s f) := fun p => opcodeBits_encode p _
theorem r (f : OFields) : Statement (.r f) := fun p => opcodeBits_encode p _
theorem and (f : OFields) : Statement (.and f) := fun p => opcodeBits_encode p _
theorem or (f : OFields) : Statement (.or f) := fun p => opcodeBits_encode p _
theorem xor (f : OFields) : Statement (.xor f) := fun p => opcodeBits_encode p _
theorem not (f : OFields) : Statement (.not f) := fun p => opcodeBits_encode p _
theorem add (f : OFields) : Statement (.add f) := fun p => opcodeBits_encode p _
theorem sub (f : OFields) : Statement (.sub f) := fun p => opcodeBits_encode p _
theorem mul (f : OFields) : Statement (.mul f) := fun p => opcodeBits_encode p _
theorem div (f : OFields) : Statement (.div f) := fun p => opcodeBits_encode p _
theorem gt (f : OFields) : Statement (.gt f) := fun p => opcodeBits_encode p _
theorem ge (f : OFields) : Statement (.ge f) := fun p => opcodeBits_encode p _
theorem eq (f : OFields) : Statement (.eq f) := fun p => opcodeBits_encode p _
theorem ne (f : OFields) : Statement (.ne f) := fun p => opcodeBits_encode p _
theorem le (f : OFields) : Statement (.le f) := fun p => opcodeBits_encode p _
theorem lt (f : OFields) : Statement (.lt f) := fun p => opcodeBits_encode p _
theorem jmp (f : JFields) : Statement (.jmp f) := fun p => opcodeBits_encode p _
theorem cal (f : JFields) : Statement (.cal f) := fun p => opcodeBits_encode p _
theorem halt (f : OFields) : Statement (.halt f) := fun p => opcodeBits_encode p _
theorem res21 (f : OFields) : Statement (.res21 f) := fun p => opcodeBits_encode p _
theorem res22 (f : OFields) : Statement (.res22 f) := fun p => opcodeBits_encode p _
theorem res23 (f : OFields) : Statement (.res23 f) := fun p => opcodeBits_encode p _
theorem res24 (f : OFields) : Statement (.res24 f) := fun p => opcodeBits_encode p _
theorem res25 (f : OFields) : Statement (.res25 f) := fun p => opcodeBits_encode p _
theorem res26 (f : OFields) : Statement (.res26 f) := fun p => opcodeBits_encode p _
theorem res27 (f : OFields) : Statement (.res27 f) := fun p => opcodeBits_encode p _
theorem res28 (f : OFields) : Statement (.res28 f) := fun p => opcodeBits_encode p _
theorem res29 (f : OFields) : Statement (.res29 f) := fun p => opcodeBits_encode p _
theorem res30 (f : OFields) : Statement (.res30 f) := fun p => opcodeBits_encode p _
theorem res31 (f : OFields) : Statement (.res31 f) := fun p => opcodeBits_encode p _

end Sys2Proof.Laws.OpcodeInWord
end

