-- ==== Sys2Proof/Machine/Listing.lean ====
section
/-! DEFINITION. The canonical listing syntax of an instruction (R10, R85, R93), with the text codes of the
operand kinds (R43, R88). It is text for the reader: nothing the engine does depends on it. -/

namespace Sys2Proof

/-- The text code of an operand kind (R43). The source gives `i`, `if`, `q` and `qf`; the other thirteen
are PRESUMED, from the table's general-knowledge column (G1, log entry 10). -/
def OperandKind.code : OperandKind → String
  | .digitalInput => "i" | .analogInput => "if" | .fallingEdge => "f" | .risingEdge => "r"
  | .digitalMemory => "m" | .analogMemory => "mf" | .commandTimer => "c" | .blinkOutput => "b"
  | .timeout => "t" | .digitalOutput => "q" | .analogOutput => "qf" | .contact => "Q"
  | .analogContact => "QF" | .start => "T" | .pulseIn => "M" | .analogMemIn => "MF" | .write => "W"

/-- The mnemonic of an opcode (R76), `RES<n>` for a reserved one (R93). -/
def Opcode.mnemonic : Opcode → String
  | .ld => "LD" | .st => "ST" | .s => "S" | .r => "R"
  | .and => "AND" | .or => "OR" | .xor => "XOR" | .not => "NOT"
  | .add => "ADD" | .sub => "SUB" | .mul => "MUL" | .div => "DIV"
  | .gt => "GT" | .ge => "GE" | .eq => "EQ" | .ne => "NE" | .le => "LE" | .lt => "LT"
  | .jmp => "JMP" | .cal => "CAL" | .halt => "HALT"
  | .res21 => "RES21" | .res22 => "RES22" | .res23 => "RES23" | .res24 => "RES24"
  | .res25 => "RES25" | .res26 => "RES26" | .res27 => "RES27" | .res28 => "RES28"
  | .res29 => "RES29" | .res30 => "RES30" | .res31 => "RES31"

/-- A suffix that is present when its flag is set. -/
def suffixIf (flag : Bool) (text : String) : String := if flag then text else ""

/-- The operand text `[!]%<code><byte>/<bit>` or `[!]%<code><word_value>` (R85); none for the kind numbers
17 to 31, which have no code. -/
def operandText (p : Params) (f : OFields) : Option String :=
  match p.kindOf f.kind with
  | none => none
  | some k =>
    some (suffixIf f.negateArg "!" ++ "%" ++ k.code ++
      (if f.word then toString (f.byte ++ f.bit).toNat
       else toString f.byte.toNat ++ "/" ++ toString f.bit.toNat))

/-- Whether all operand fields are 0, so that NOT and HALT are listed bare (R85). DESIGN CHOICE (log entry
20): the operand fields are those the operand text spells, `word`, `negate_arg`, `operand_kind`, `byte` and
`bit`; `push` and `ret`, which R61 counts among them, do not matter here, and a set flag keeps its suffix. -/
def operandFieldsZero (f : OFields) : Bool :=
  !f.word && !f.negateArg && f.kind == 0 && f.byte == 0 && f.bit == 0

/-- The mnemonic with the flag suffixes in the order `!?(` (R85). -/
def oHead (o : Opcode) (f : OFields) : String :=
  o.mnemonic ++ suffixIf f.negateInstr "!" ++ suffixIf f.cond "?" ++ suffixIf f.push "("

/-- The listing of a format-O instruction (R85, R93). -/
def oListing (p : Params) (o : Opcode) (f : OFields) : Option String :=
  if (o == .not || o == .halt) && operandFieldsZero f then some (oHead o f)
  else (operandText p f).map (fun t => oHead o f ++ " " ++ t)

/-- The listing of a format-J instruction, its target in decimal (R85). -/
def jListing (o : Opcode) (f : JFields) : Option String :=
  some (o.mnemonic ++ suffixIf f.negateInstr "!" ++ suffixIf f.cond "?" ++ " " ++ toString f.target.toNat)

/-- The canonical listing of an instruction (R85); the close instruction is written `)` (R115). -/
def listing (p : Params) (close : Option Reserved) (i : Instr) : Option String :=
  if close.map Reserved.opcode = some i.opcode then some ")"
  else
    match i.fields p with
    | .o _ f => oListing p i.opcode f
    | .j _ f => jListing i.opcode f

end Sys2Proof
end

