-- ==== Sys2Proof/Machine/Assembly.lean ====
section
/-! DEFINITION. The text of one instruction read back (R84, R86 to R90): the mnemonic token and the operand
token to the instruction, and the value of a label. The assembler's line splitting, label table and error
recovery are outside the spec's scope (R4); what it does not define (N6) is answered `unstated` (log
entry 17). Nothing the engine does depends on this file. -/

namespace Sys2Proof

/-- The assembler's errors (R91); the spec states no cause for `malformedOperand`, and nothing here
raises it. -/
inductive AsmError where
  | unknownInstruction | unresolvedLabel | missingOperandMarker | unknownOperandKind | malformedOperand
  deriving DecidableEq, Repr

/-- What reading a text gives: a value, one of R91's errors, or nothing the spec states (N6). -/
inductive AsmResult (α : Type) where
  | ok (value : α)
  | error (why : AsmError)
  | unstated
  deriving DecidableEq, Repr

/-- The result with `g` applied to its value. -/
def AsmResult.map {α β : Type} (g : α → β) : AsmResult α → AsmResult β
  | .ok v => .ok (g v)
  | .error why => .error why
  | .unstated => .unstated

/-- The text without the blanks around it. -/
def trimText (t : List Char) : List Char :=
  ((t.dropWhile Char.isWhitespace).reverse.dropWhile Char.isWhitespace).reverse

/-- The number a string of decimal digits spells; `none` for any other text. -/
def decimal (t : List Char) : Option Nat :=
  if t.isEmpty || !t.all Char.isDigit then none
  else some (t.foldl (fun n c => n * 10 + (c.toNat - 48)) 0)

/-- A mnemonic token read (R84): the opcode, and the flags `!`, `?` and `(` found anywhere in it. -/
structure MnemonicText where
  opcode : Opcode
  negateInstr : Bool
  cond : Bool
  push : Bool
  deriving DecidableEq, Repr

/-- R84: upper-cased, the modifier characters recorded and removed, the rest one of the named mnemonics.
The names of the reserved opcodes are not accepted (R93). -/
def readMnemonic (token : List Char) : AsmResult MnemonicText :=
  let up := token.map Char.toUpper
  let rest := trimText (up.filter (fun c => c != '!' && c != '?' && c != '('))
  match Opcode.defined.find? (fun o => o.mnemonic.toList == rest) with
  | none => .error .unknownInstruction
  | some o => .ok ⟨o, up.contains '!', up.contains '?', up.contains '('⟩

/-- What follows `code` in the text, when the text begins with it. -/
def afterCode : List Char → List Char → Option (List Char)
  | [], t => some t
  | _ :: _, [] => none
  | c :: code, d :: t => if c = d then afterCode code t else none

/-- Of two kinds the one with the longer code, the first of equals. -/
def longerCode (a b : OperandKind × List Char) : OperandKind × List Char :=
  if a.1.code.length < b.1.code.length then b else a

/-- R87: the longest kind code the text begins with, and the text after it. -/
def readKind (t : List Char) : Option (OperandKind × List Char) :=
  (OperandKind.all.filterMap (fun k => (afterCode k.code.toList t).map (fun rest => (k, rest)))).foldl
    (fun best next => some (match best with | none => next | some b => longerCode b next)) none

/-- R86: `<byte>/<bit>` or `<word>` after the kind code, `word` set by the shape of the address. A text of
neither shape, or a number that does not fit its field, is `unstated` (N6). -/
def readAddress (p : Params) (negateArg : Bool) (k : OperandKind) (t : List Char) : AsmResult OFields :=
  let before := t.takeWhile (fun c => c != '/')
  match t.dropWhile (fun c => c != '/') with
  | [] =>
    match decimal t with
    | none => .unstated
    | some n =>
      if n < 2 ^ 16 then
        .ok ⟨false, false, false, false, true, negateArg, p.kindNumber k,
          (BitVec.ofNat 16 n).extractLsb' 8 8, (BitVec.ofNat 16 n).extractLsb' 0 8⟩
      else .unstated
  | _ :: after =>
    match decimal before, decimal after with
    | some y, some b =>
      if y < 2 ^ 8 ∧ b < 2 ^ 8 then
        .ok ⟨false, false, false, false, false, negateArg, p.kindNumber k, BitVec.ofNat 8 y, BitVec.ofNat 8 b⟩
      else .unstated
    | _, _ => .unstated

/-- R86 to R88, R90: the operand token of an instruction that is no jump; the flags of the mnemonic token
are still 0 in what it answers. -/
def readOperand (p : Params) (token : List Char) : AsmResult OFields :=
  let t := trimText token
  if t.length ≤ 1 then .ok .zero
  else
    let negateArg := t.head? == some '!'
    let body := if negateArg then t.drop 1 else t
    match body.dropWhile (fun c => c != '%') with
    | [] => .error .missingOperandMarker
    | _ :: address =>
      match readKind address with
      | none => .error .unknownOperandKind
      | some (k, rest) => readAddress p negateArg k rest

/-- R89: the operand of JMP and CAL, the decimal value of the field (90_conflicts.md C5) or a label, whose
lookup is the caller's (N8); no text leaves the target 0 (R90). DESIGN CHOICE (log entry 17): a token of one
character is an operand too, a digit the field value (as V4 has it) and anything else a label, although
R90 calls a token of length at most 1 no operand. -/
def readTarget (labels : List Char → Option Nat) (token : List Char) : AsmResult (BitVec 25) :=
  let t := trimText token
  if t.isEmpty then .ok 0
  else
    let target := match decimal t with
      | some n => some n
      | none => labels t
    match target with
    | none => .error .unresolvedLabel
    | some n => if n < 2 ^ 25 then .ok (BitVec.ofNat 25 n) else .unstated

/-- The value a label on the `n`-th non-blank line (counting from 1) has as a jump operand (R89,
90_conflicts.md C2): that count, not the line's index. -/
def labelValue (n : Nat) : Nat := n

/-- The index in the program of the instruction on the `n`-th non-blank line (R83). -/
def lineIndex (n : Nat) : Nat := n - 1

/-- The instruction two tokens spell. `push` has no place in a jump (90_conflicts.md C6). -/
def assemble (p : Params) (labels : List Char → Option Nat) (mnemonic operand : List Char) : AsmResult Instr :=
  match readMnemonic mnemonic with
  | .error why => .error why
  | .unstated => .unstated
  | .ok m =>
    if isJump p (p.number m.opcode) then
      (readTarget labels operand).map
        (fun t => decode p (encodeFields (.j (p.number m.opcode) ⟨m.cond, m.negateInstr, t⟩)))
    else
      (readOperand p operand).map
        (fun f => decode p (encodeFields (.o (p.number m.opcode)
          { f with cond := m.cond, negateInstr := m.negateInstr, push := m.push })))

end Sys2Proof
end

