-- ==== Sys2Proof/Tests/Slice0.lean ====
section
/-! SUPPORT. The model's own tests. Expected values come from the rules and from 95_test_vectors.md (the
vector's id stands in the comment), never from the model. Each is one step or one decoding. -/

namespace Sys2Proof.Tests

open Sys2Proof.Machine

/-! ### Helpers -/

/-- The spec's default configuration. -/
abbrev cfg : Params := Params.default

/-- A running engine with the given accumulator and listed cells. -/
def start (acc : Value 16) (mem : Memory 16) : Engine 16 where
  pc := 0
  acc := acc
  es := []
  status := .running
  steps := 0
  prog := []
  budget := none
  closeOpcode := none
  storage := .reference
  mem := mem
  ports := []

/-- One step of an engine in the default configuration. -/
def go (e : Engine 16) : Result := step ⟨cfg, e⟩

/-- One step of `e` with the word `x` at its `pc`. -/
def run (x : Nat) (e : Engine 16) : Result := step (State.withFetchWord ⟨cfg, e⟩ 32 x)

/-- The engine of a state, where its values have `n` bits. -/
def engineOf (n : Nat) (t : State) : Option (Engine n) :=
  if h : t.params.vw = n then some (h ▸ t.engine) else none

/-- A question about the next state's engine over `n` bits, `none` where there is none. -/
def askOf (n : Nat) {α : Type} (r : Result) (q : Engine n → α) : Option α :=
  match r with
  | .next t => (engineOf n t).map q
  | .fault _ => none
  | .refused _ => none

/-- A question about the next state's engine in the default configuration. -/
def ask {α : Type} (r : Result) (q : Engine 16 → α) : Option α := askOf 16 r q

/-- The number of a cell. -/
def cellNo (kind : BitVec 5) (word : Bool) (addr : BitVec 16) : Nat := Key.index ⟨kind, word, addr⟩

/-- `%i0/0`, `%i0/1`, `%if0`, `%if1`, `%q0/0`, `%q0/1`, `%qf0`. -/
def i00 : Key := ⟨0, false, 0⟩
def i01 : Key := ⟨0, false, 1⟩
def if0 : Key := ⟨1, true, 0⟩
def if1 : Key := ⟨1, true, 1⟩
def q00 : Key := ⟨9, false, 0⟩
def q01 : Key := ⟨9, false, 1⟩

/-- One listed cell. -/
def at1 (k : Key) (v : Value 16) : Memory 16 := [(k.index, v)]

/-! ### Well-formedness: an ill-formed term for each check -/

theorem test_wf_refuses_o_with_jump_opcode : (Fields.o 18 OFields.zero).wf cfg = false := by decide
theorem test_wf_refuses_j_without_jump_opcode : (Fields.j 4 ⟨false, false, 0⟩).wf cfg = false := by decide
theorem test_wf_accepts_cal : (Fields.j 19 ⟨true, true, 7⟩).wf cfg = true := by decide
-- DEC2, DEC3, DEC8, DEC10: the column "defined?" of R75.
theorem test_defined_refuses_opcode_31 : (decodeFields cfg 0xFFFFFFFF#32).isDefined cfg = false := by decide
theorem test_defined_refuses_kind_31 : (decodeFields cfg 0x27FFFFFF#32).isDefined cfg = false := by decide
theorem test_defined_refuses_kind_20 : (decodeFields cfg 0x12345678#32).isDefined cfg = false := by decide
theorem test_defined_accepts_not_kind_31 : (decodeFields cfg 0x38FFFFFF#32).isDefined cfg = true := by decide
theorem test_plain_refuses_ld_push : (decode cfg 0x01000000#32).plain ≠ decode cfg 0x01000000#32 := by decide
theorem test_plain_refuses_and_ret : (decode cfg 0x20800000#32).plain ≠ decode cfg 0x20800000#32 := by decide
theorem test_plain_refuses_s_negate_arg : (decode cfg 0x10200000#32).plain ≠ decode cfg 0x10200000#32 := by decide
theorem test_plain_refuses_jmp_negate_only : (decode cfg 0x92000004#32).plain ≠ decode cfg 0x92000004#32 := by decide
theorem test_plain_refuses_not_operand : (decode cfg 0x38000001#32).plain ≠ decode cfg 0x38000001#32 := by decide
theorem test_plain_accepts_and_push : (decode cfg 0x21000001#32).plain = decode cfg 0x21000001#32 := by decide

/-! ### Decoding: words of 95_test_vectors.md sections 2.1 and 2.2, or written out from R62, R63 and R76.
The fields are in the order cond, negate_instr, push, ret, word, negate_arg, kind, byte, bit. -/

-- ENC2
theorem test_dec_ld : decode cfg 0x006A0201#32 = .ld ⟨false, false, false, false, true, true, 10, 2, 1⟩ := by
  decide
-- ENC4
theorem test_dec_st : decode cfg 0x08290102#32 = .st ⟨false, false, false, false, false, true, 9, 1, 2⟩ := by
  decide
-- DEC8
theorem test_dec_s : decode cfg 0x12345678#32 = .s ⟨false, true, false, false, false, true, 20, 86, 120⟩ := by
  decide
-- ENC6
theorem test_dec_r : decode cfg 0x18090001#32 = .r ⟨false, false, false, false, false, false, 9, 0, 1⟩ := by
  decide
-- ENC9
theorem test_dec_and : decode cfg 0x2300FFFF#32 = .and ⟨false, true, true, false, false, false, 0, 255, 255⟩ := by
  decide
-- ENC10
theorem test_dec_or : decode cfg 0x28000002#32 = .or ⟨false, false, false, false, false, false, 0, 0, 2⟩ := by
  decide
-- ENC11
theorem test_dec_xor : decode cfg 0x30000000#32 = .xor OFields.zero := by decide
-- DEC10
theorem test_dec_not : decode cfg 0x38FFFFFF#32 = .not ⟨false, false, false, true, true, true, 31, 255, 255⟩ := by
  decide
-- ENC14
theorem test_dec_add : decode cfg 0x404A0000#32 = .add ⟨false, false, false, false, true, false, 10, 0, 0⟩ := by
  decide
-- ENC15
theorem test_dec_sub : decode cfg 0x48410001#32 = .sub ⟨false, false, false, false, true, false, 1, 0, 1⟩ := by
  decide
-- ENC16
theorem test_dec_mul : decode cfg 0x50410002#32 = .mul ⟨false, false, false, false, true, false, 1, 0, 2⟩ := by
  decide
-- ENC18
theorem test_dec_div : decode cfg 0x59410001#32 = .div ⟨false, false, true, false, true, false, 1, 0, 1⟩ := by
  decide
-- ENC19
theorem test_dec_gt : decode cfg 0x6041FFFF#32 = .gt ⟨false, false, false, false, true, false, 1, 255, 255⟩ := by
  decide
-- ENC20
theorem test_dec_ge : decode cfg 0x68410000#32 = .ge ⟨false, false, false, false, true, false, 1, 0, 0⟩ := by
  decide
-- ENC21
theorem test_dec_eq : decode cfg 0x70410000#32 = .eq ⟨false, false, false, false, true, false, 1, 0, 0⟩ := by
  decide
-- ENC22
theorem test_dec_ne : decode cfg 0x78410001#32 = .ne ⟨false, false, false, false, true, false, 1, 0, 1⟩ := by
  decide
-- ENC23
theorem test_dec_le : decode cfg 0x80410000#32 = .le ⟨false, false, false, false, true, false, 1, 0, 0⟩ := by
  decide
-- ENC24
theorem test_dec_lt : decode cfg 0x88410000#32 = .lt ⟨false, false, false, false, true, false, 1, 0, 0⟩ := by
  decide
-- DEC7: bit 24 is the top bit of the target, not push
theorem test_dec_jmp : decode cfg 0x91000000#32 = .jmp ⟨false, false, 16777216⟩ := by decide
-- DEC6
theorem test_dec_cal : decode cfg 0x9ABCDEF0#32 = .cal ⟨false, true, 12377840⟩ := by decide
-- ENC31
theorem test_dec_halt : decode cfg 0xA0000000#32 = .halt OFields.zero := by decide
-- ENC32, and R76's base words 0xA8000000 + (n - 21) * 0x08000000
theorem test_dec_res21 : decode cfg 0xA8000000#32 = .res21 OFields.zero := by decide
theorem test_dec_res22 : decode cfg 0xB0000000#32 = .res22 OFields.zero := by decide
theorem test_dec_res23 : decode cfg 0xB8000000#32 = .res23 OFields.zero := by decide
theorem test_dec_res24 : decode cfg 0xC0000000#32 = .res24 OFields.zero := by decide
theorem test_dec_res25 : decode cfg 0xC8000000#32 = .res25 OFields.zero := by decide
theorem test_dec_res26 : decode cfg 0xD0000000#32 = .res26 OFields.zero := by decide
-- DEC9
theorem test_dec_res27 : decode cfg 0xDEADBEEF#32 = .res27 ⟨true, true, false, true, false, true, 13, 190, 239⟩ := by
  decide
theorem test_dec_res28 : decode cfg 0xE0000000#32 = .res28 OFields.zero := by decide
theorem test_dec_res29 : decode cfg 0xE8000000#32 = .res29 OFields.zero := by decide
theorem test_dec_res30 : decode cfg 0xF0000000#32 = .res30 OFields.zero := by decide
-- DEC2
theorem test_dec_res31 : decode cfg 0xFFFFFFFF#32 = .res31 ⟨true, true, true, true, true, true, 31, 255, 255⟩ := by
  decide
-- V3
theorem test_enc_jmp : encode cfg (.jmp ⟨true, true, 33554431⟩) = 0x97FFFFFF#32 := by decide
theorem test_enc_and : encode cfg (.and ⟨true, true, true, true, true, true, 31, 255, 255⟩) = 0x27FFFFFF#32 := by
  decide
theorem test_table_word : decodeTableWord 32 0x58410001 =
    some (.div ⟨false, false, false, false, true, false, 1, 0, 1⟩) := by decide

/-! ### Listings (R85; ENC9, ENC19, ENC27, ENC2, ENC12, ENC32, section 2.5) -/

theorem test_list_and : listing cfg none (decode cfg 0x2300FFFF#32) = some "AND!( %i255/255" := by decide
theorem test_list_gt : listing cfg none (decode cfg 0x6041FFFF#32) = some "GT %if65535" := by decide
theorem test_list_jmp : listing cfg none (decode cfg 0x96000005#32) = some "JMP!? 5" := by decide
theorem test_list_ld : listing cfg none (decode cfg 0x006A0201#32) = some "LD !%qf513" := by decide
theorem test_list_not : listing cfg none (decode cfg 0x38000000#32) = some "NOT" := by decide
theorem test_list_res : listing cfg none (decode cfg 0xA8000000#32) = some "RES21 %i0/0" := by decide
theorem test_list_close : listing cfg (some .res21) (decode cfg 0xA8000000#32) = some ")" := by decide

/-! ### Text read back (V4, V6, V7, V2; R86, R87, R90) -/

/-- The word two tokens spell, with no label known but `end`, on the fifth line. -/
def spell (mnemonic operand : String) : AsmResult Word :=
  (assemble cfg (fun t => if t = ['e', 'n', 'd'] then some (labelValue 5) else none)
    mnemonic.toList operand.toList).map (encode cfg)

theorem test_asm_and : spell "and(" "%i0/1" = .ok 0x21000001#32 := by decide
theorem test_asm_jmp : spell "JMP?!" "5" = .ok 0x96000005#32 := by decide
theorem test_asm_ld : spell "ld" "!%qf513" = .ok 0x006A0201#32 := by decide
theorem test_asm_label : spell "JMP" "end" = .ok 0x90000005#32 := by decide
theorem test_asm_unknown : spell "FOO" "%i0/0" = .error .unknownInstruction := by decide
theorem test_asm_nowhere : spell "JMP" "nowhere" = .error .unresolvedLabel := by decide
theorem test_asm_longest_code : spell "LD" "%if3" = .ok 0x00410003#32 := by decide
theorem test_asm_no_operand : spell "AND" "" = .ok 0x20000000#32 := by decide
theorem test_asm_no_marker : spell "LD" "i0/0" = .error .missingOperandMarker := by decide

/-! ### Load and store (section 2.3) -/

-- X-LD3: neg of a non-zero word
theorem test_ld_negated_word : ask (run 0x00610000 (start 5 (at1 if0 7))) Engine.acc = some 0 := by decide
-- X-LD5: every flag without a meaning set
theorem test_ld_ignores_flags :
    ask (run 0x07800000 (start 5 (at1 i00 1))) (fun t => (t.acc, t.es)) = some (1, []) := by decide
-- X-ST3: a discrete cell keeps one boolean
theorem test_st_discrete : ask (run 0x08090000 (start 2 [])) (fun t => (t.cell q00, t.acc)) = some (1, 2) := by
  decide
-- X-ST5
theorem test_st_negated :
    ask (run 0x086A0006 (start 2 (at1 ⟨10, true, 6⟩ 99))) (fun t => (t.cell ⟨10, true, 6⟩, t.acc)) =
      some (0, 2) := by decide
-- X-S3: the word 1, not the accumulator
theorem test_s_word : ask (run 0x104A0003 (start (-3) [])) (fun t => t.cell ⟨10, true, 3⟩) = some 1 := by
  decide
-- X-S2: no access
theorem test_s_false : ask (run 0x10090000 (start 0 [])) (fun t => (t.cell q00, t.ports)) = some (0, []) := by
  decide
-- X-R3
theorem test_r_word :
    ask (run 0x184A0004 (start (-3) (at1 ⟨10, true, 4⟩ 99))) (fun t => t.cell ⟨10, true, 4⟩) = some 0 := by
  decide
-- X-R2
theorem test_r_false : ask (run 0x18090001 (start 0 (at1 q01 1))) (fun t => t.cell q01) = some 1 := by decide

/-! ### Boolean and brackets (section 2.5) -/

-- X-B1
theorem test_and_negated : ask (run 0x20200001 (start 1 [])) Engine.acc = some 1 := by decide
-- X-B9: the new frame on top of an open one, negate_instr ignored
theorem test_and_push :
    ask (run 0x2300FFFF { start 1 (at1 ⟨0, false, 0xFFFF⟩ 1) with es := [⟨.or, 0⟩] })
      (fun t => (t.es, t.acc)) = some ([⟨.and, 1⟩, ⟨.or, 0⟩], 1) := by decide
-- section 2.4, OR 0, 6: logical, not bitwise
theorem test_or_logical : ask (run 0x28410000 (start 0 (at1 if0 6))) Engine.acc = some 1 := by decide
-- section 2.4, XOR 2, 4
theorem test_xor_logical : ask (run 0x30410000 (start 2 (at1 if0 4))) Engine.acc = some 0 := by decide
-- X-B4, X-B6
theorem test_not_of_seven : ask (run 0x38000000 (start 7 [])) Engine.acc = some 0 := by decide
theorem test_not_no_access :
    ask (run 0x38FFFFFF (start 0 [])) (fun t => (t.acc, t.ports)) = some (1, []) := by decide
-- X-B10, X-B11, X-B12: the close instruction, an extension with CLOSE_OPCODE = 21
theorem test_close_applies :
    ask (run 0xA8000000 { start 1 [] with es := [⟨.and, 1⟩], closeOpcode := some .res21 })
      (fun t => (t.acc, t.es)) = some (1, []) := by decide
theorem test_close_divides_saved_by_acc :
    ask (run 0xA8000000 { start 2 [] with es := [⟨.div, 7⟩], closeOpcode := some .res21 })
      (fun t => (t.acc, t.es)) = some (3, []) := by decide
theorem test_close_div_zero :
    ask (run 0xA8000000 { start 0 [] with es := [⟨.div, 7⟩], closeOpcode := some .res21 })
      (fun t => (t.status, t.es, t.pc)) = some (.stopped .divisionByZero, [⟨.div, 7⟩], 0) := by decide
theorem test_close_empty :
    ask (run 0xA8000000 { start 7 [] with closeOpcode := some .res21 })
      (fun t => (t.acc, t.pc)) = some (7, 1) := by decide

/-! ### Arithmetic (section 2.4) -/

theorem test_add_wraps : ask (run 0x40410000 (start 32767 (at1 if0 1))) Engine.acc = some 0x8000 := by decide
theorem test_add_discrete : ask (run 0x40000001 (start 1 [])) Engine.acc = some 1 := by decide
theorem test_sub_order : ask (run 0x48410001 (start 3 (at1 if1 1))) Engine.acc = some 2 := by decide
theorem test_sub_wraps : ask (run 0x48410000 (start 0x8000 (at1 if0 1))) Engine.acc = some 32767 := by decide
theorem test_mul_low_bits : ask (run 0x50410000 (start 181 (at1 if0 182))) Engine.acc = some 0x80AE := by decide
theorem test_mul_signed : ask (run 0x50410000 (start (-3) (at1 if0 5))) Engine.acc = some 0xFFF1 := by decide
theorem test_div_truncates : ask (run 0x58410000 (start (-7) (at1 if0 2))) Engine.acc = some (-3) := by decide
theorem test_div_most_negative :
    ask (run 0x58410000 (start 0x8000 (at1 if0 0xFFFF))) (fun t => (t.acc, t.status)) =
      some (0x8000, .running) := by decide
-- V8: the operand has been read, nothing else changed
theorem test_div_by_zero :
    ask (run 0x58000000 (start 7 [])) (fun t => (t.status, t.pc, t.acc, t.steps, t.ports)) =
      some (.stopped .divisionByZero, 0, 7, 0, [.read i00 0]) := by decide
-- X-B8: no zero test when a bracket is opened
theorem test_div_push_zero :
    ask (run 0x59410001 (start 7 [])) (fun t => (t.status, t.es, t.acc)) =
      some (.running, [⟨.div, 7⟩], 0) := by decide

/-! ### Compare (section 2.4) -/

theorem test_gt_signed : ask (run 0x60410000 (start 0xFFFF [])) Engine.acc = some 0 := by decide
theorem test_ge_equal : ask (run 0x68410000 (start 3 (at1 if0 3))) Engine.acc = some 1 := by decide
theorem test_eq_of_values : ask (run 0x70410000 (start 2 (at1 if0 1))) Engine.acc = some 0 := by decide
theorem test_ne : ask (run 0x78410001 (start 2 (at1 if1 1))) Engine.acc = some 1 := by decide
theorem test_le_signed : ask (run 0x80410000 (start 0xFFFF [])) Engine.acc = some 1 := by decide
theorem test_lt_equal : ask (run 0x88410000 (start 3 (at1 if0 3))) Engine.acc = some 0 := by decide

/-! ### Control (sections 2.6, 2.7) -/

-- X-J4, X-J5, X-J7, X-J10, X-J11
theorem test_jmp_if_false_taken : ask (run 0x96000005 { start 0 [] with pc := 2 }) Engine.pc = some 5 := by decide
theorem test_jmp_if_false_not_taken : ask (run 0x96000005 { start 1 [] with pc := 2 }) Engine.pc = some 3 := by
  decide
theorem test_jmp_negate_without_cond : ask (run 0x92000004 (start 1 [])) Engine.pc = some 4 := by decide
theorem test_jmp_largest_target : ask (run 0x97FFFFFF (start 0 [])) Engine.pc = some 33554431 := by decide
theorem test_cal_not_taken : ask (run 0x9C000007 { start 0 [] with pc := 1 }) Engine.pc = some 2 := by decide
theorem test_cal_saves_nothing :
    ask (run 0x98000007 { start 5 [] with pc := 1 }) (fun t => (t.pc, t.es, t.acc, t.steps)) =
      some (7, [], 5, 1) := by decide
-- X-H1, X-H2
theorem test_halt :
    ask (run 0xA0000000 { start 5 [] with pc := 3, steps := 3 }) (fun t => (t.status, t.pc, t.steps)) =
      some (.stopped .halted, 3, 3) := by decide
theorem test_halt_no_access : ask (run 0xA7FFFFFF (start 5 [])) Engine.ports = some [] := by decide
-- X-ILL2
theorem test_reserved :
    ask (run 0xFFFFFFFF (start 5 [])) (fun t => (t.status, t.pc, t.acc, t.steps, t.ports)) =
      some (.stopped .illegalOpcode, 0, 5, 0, []) := by decide
theorem test_reserved_other_than_close :
    ask (run 0xB0000000 { start 5 [] with closeOpcode := some .res21 }) Engine.status =
      some (.stopped .illegalOpcode) := by decide
-- X-OV1, X-BU2, X-BU1
theorem test_empty_program_overruns :
    ask (go (start 0 [])) (fun t => (t.status, t.pc, t.steps)) = some (.stopped .programOverrun, 0, 0) := by
  decide
theorem test_budget_before_overrun :
    ask (go { start 0 [] with budget := some 0 }) Engine.status = some (.stopped .cancelled) := by decide
theorem test_budget_before_halt :
    ask (go { start 0 [] with budget := some 0, prog := [0xA0000000#32] }) Engine.status =
      some (.stopped .cancelled) := by decide
-- X-TERM
theorem test_no_step_after_stop : ask (go { start 0 [] with status := .stopped .halted }) Engine.pc = none := by
  decide
-- R166
theorem test_status_codes : (Status.stopped .cancelled).code = 5 ∧ (Status.stopped .divisionByZero).code = 2 := by
  decide
theorem test_frame_number : Frame.number cfg (⟨.and, 1⟩ : Frame 16) = 4 ∧ Frame.number cfg (⟨.div, 7⟩ : Frame 16) = 11 := by decide

/-! ### The memory -/

-- R52: no aliasing between the discrete and the word space of one kind (N14)
theorem test_memory_no_alias :
    ((at1 ⟨4, false, 3⟩ 1).read (cellNo 4 true 3), (at1 ⟨4, false, 3⟩ 1).read (cellNo 4 false 3)) = (0, 1) := by
  decide
theorem test_memory_zero_not_listed : (at1 if0 7).write if0.index 0 = [] := by decide
theorem test_memory_sorted : (at1 if0 7).write i01.index 1 = [(i01.index, 1), (if0.index, 7)] := by decide
theorem test_memory_wf_refuses_zero : Memory.wf (w := 16) [(3, 0)] = false := by decide
theorem test_memory_wf_refuses_unsorted : Memory.wf (w := 16) [(3, 1), (2, 1)] = false := by decide
theorem test_memory_wf_refuses_no_key : Memory.wf (w := 16) [(4194304, 1)] = false := by decide
-- R51: a host storage answers whatever it answers, and the reference memory stays
theorem test_host_read_is_free :
    (memRead if0 { start 9 (at1 if0 7) with storage := .host 3 [.write if0 5] }).1 = Config.hostRead 16 3 [.write if0 5] if0 := rfl
theorem test_host_write_leaves_reference_cells :
    ask (run 0x08410000 { start 9 (at1 if0 7) with storage := .host 3 [.write if0 5] }) (fun t => (t.cell if0, t.ports)) =
      some (7, [.write if0 9]) := by decide
-- R58: the memory outlives the run, whichever storage it is
theorem test_relaunch_keeps_memory :
    (engineOf 16 (State.relaunch ⟨cfg, start 9 (at1 if0 7)⟩ [] none 0#16 none)).map
      (fun e => (e.cell if0, e.acc)) = some (7, 0) := by decide
theorem test_relaunch_keeps_host_accesses :
    (engineOf 16 (State.relaunch ⟨cfg, { start 9 [] with
        storage := .host 3 [.write if1 5], ports := [.write if0 9] }⟩ [] none 0#16 none)).map
      (fun e => (e.storage, e.ports)) = some (.host 3 [.write if0 9, .write if1 5], []) := by decide

/-! ### Other configurations (R5) -/

/-- Values of 8 bits, LD and ST with their numbers exchanged, the alternatives to the laws of `alu`, one
frame, the least significant byte first. -/
def other : Params where
  vw := 8
  opc := .st :: .ld :: Opcode.defined.drop 2
  kind := OperandKind.all
  alu := .laws .bitwise .saturating .floored .unsigned
  esDepth := some 1
  blobOrder := .littleEndian
  ok := by decide

/-- The default configuration with values of 8 bits. -/
def eight : Params where
  vw := 8
  opc := Opcode.defined
  kind := OperandKind.all
  alu := .default
  esDepth := none
  blobOrder := .bigEndian
  ok := by decide

theorem test_reset_is_default : State.reset = ⟨cfg, start 0 []⟩ := by decide
theorem test_other_numbering :
    decode other 0x00000000#32 = .st OFields.zero ∧ encode other (.ld OFields.zero) = 0x08000000#32 ∧
      decode other 0xA8000000#32 = .res21 OFields.zero := by decide
-- R130 at VW = 8: 127 + 1 wraps to -128
theorem test_other_width :
    askOf 8 (step ⟨eight, ⟨0, 127#8, [], .running, 0, [0x40410000#32], none, none, .reference,
      [(if0.index, 1#8)], []⟩⟩) (fun e => e.acc.toInt) = some (-128) := by decide
theorem test_params_refuse_missing_opcode : Params.valid 16 [.ld] OperandKind.all .bigEndian = false := by decide
theorem test_params_refuse_width_zero : Params.valid 0 Opcode.defined OperandKind.all .bigEndian = false := by decide
theorem test_params_refuse_byte_twice :
    Params.valid 16 Opcode.defined OperandKind.all [3, 2, 1, 1] = false := by decide

-- The laws D9, D10 and D11 set aside: 3 AND 4 bit by bit, 32767 + 1 held at the limit, -7 / 2 rounded
-- downward, 0xFFFF > 0 unsigned; and R130's own beside them
theorem test_alu_bitwise :
    alu (w := 16) (.laws .bitwise .wrapping .truncated .signed) .and 3 4 = some 0 ∧
      alu (w := 16) .default .and 3 4 = some 1 := by decide
theorem test_alu_saturating :
    alu (w := 16) (.laws .logical .saturating .truncated .signed) .add 32767 1 = some 32767 ∧
      alu (w := 16) (.laws .logical .saturating .truncated .signed) .sub 0x8000 1 = some 0x8000 := by decide
theorem test_alu_floored :
    alu (w := 16) (.laws .logical .wrapping .floored .signed) .div (-7) 2 = some (-4) ∧
      alu (w := 16) .default .div (-7) 2 = some (-3) := by decide
theorem test_alu_unsigned :
    alu (w := 16) (.laws .logical .wrapping .truncated .unsigned) .gt 0xFFFF 0 = some 1 := by decide
theorem test_alu_other :
    alu (w := 16) (.other 5) .div 7 0 = none ∧
      alu (.other 5) .add (7 : Value 16) 2 = some (Config.otherAlu 16 5 .add 7 2) := ⟨rfl, rfl⟩
-- The configured laws are those the instruction uses: 100 + 100 at VW = 8, saturating
theorem test_configured_laws :
    askOf 8 (exec (.add ⟨false, false, false, false, true, false, 1, 0, 0⟩) ⟨other, ⟨0, 100#8, [], .running, 0, [],
      none, none, .reference, [(if0.index, 100#8)], []⟩⟩) Engine.acc = some 127#8 := by decide
-- U13: a stack of one frame takes one, and a second is stuck
theorem test_bounded_stack :
    askOf 8 (exec (.and { OFields.zero with push := true }) ⟨other, ⟨0, 3#8, [], .running, 0, [], none, none,
      .reference, [], []⟩⟩) Engine.es = some [⟨.and, 3#8⟩] ∧
    exec (.and { OFields.zero with push := true }) ⟨other, ⟨0, 3#8, [⟨.or, 1#8⟩], .running, 0, [], none, none,
      .reference, [], []⟩⟩ = .fault .stackFull := ⟨by decide, rfl⟩
-- R46: four bytes an instruction, in the configured order
theorem test_blob_order :
    cfg.blobOfProgram [0x21000001#32] = [0x21, 0, 0, 0x01] ∧
      other.blobOfProgram [0x21000001#32] = [0x01, 0, 0, 0x21] := by decide
theorem test_blob_read :
    other.programOfBlob [0x01, 0, 0, 0x21] = some [0x21000001#32] ∧ cfg.programOfBlob [0x21, 0, 0] = none := by
  decide

/-! ### Witnesses: for each statement with hypotheses, a state and operands that meet them, one for each
clause that has a hypothesis of its own -/

/-- `DIV %if1` with `push` clear and set. -/
def divIf1 : OFields := ⟨false, false, false, false, true, false, 1, 0, 1⟩
def divIf1Push : OFields := { divIf1 with push := true }

/-- A running state whose program is one word, with `%if1` = 2. -/
def one (x : Word) : Engine 16 := { start 7 (at1 if1 2) with prog := [x] }

theorem one_not_spent (x : Word) : ¬ Spent (one x) := by
  rintro ⟨b, h, _⟩
  cases h

-- CodecDecodeAfterEncode
theorem witness_record_wf : (Fields.o 11 divIf1).wf cfg = true := by decide
-- FormatJExactlyForJumpOpcodes: 18, 19 and the neighbours 17 and 20
theorem witness_format :
    (0x90000000#32).toNat / 2 ^ 27 = 18 ∧ (0x9FFFFFFF#32).toNat / 2 ^ 27 = 19 ∧
      (0x8FFFFFFF#32).toNat / 2 ^ 27 = 17 ∧ (0xA0000000#32).toNat / 2 ^ 27 = 20 := by decide
-- EveryTableRowSelectsItsInstruction: the lowest and the highest row
theorem witness_table_rows :
    (0x07FFFFFF#32 &&& 0xF8000000#32) = 0x00000000#32 ∧
      (0xFFFFFFFF#32 &&& 0xF8000000#32) = 0xF8000000#32 := by decide
-- AluTable, DivisionTruncatesTowardZero: divisor 0, another, and the quotient that does not fit
theorem witness_divisors : (0 : Value 16) = 0 ∧ (2 : Value 16) ≠ 0 ∧ (0x8000#16).toInt = -2 ^ 15 ∧ (0xFFFF#16).toInt = -1 := by decide
-- TruthAndBooleanNegation, BooleansCompareAsOneAndZero, TruthIdentities, ComparisonTrichotomy (a width of at least one bit)
theorem witness_width : 0 < Params.default.vw ∧ 0 < other.vw ∧ 2 ≤ Params.default.vw := by decide
theorem witness_nonzero_value : (0x8000 : Value 16) ≠ 0 := by decide
-- StoreWritesAccumulator, SetWritesOneWhenTrue, ResetWritesZeroWhenTrue: both clauses, both storages
theorem witness_store_states :
    (start 7 (at1 if1 2)).mem.wf = true ∧ (start 7 []).acc ≠ 0 ∧ (start 0 []).acc = 0 ∧
      (start 7 []).storage = .reference ∧ ({ start 7 [] with storage := .host 0 [] } : Engine 16).storage ≠ .reference := by
  decide
-- The statements on two-operand instructions: a stack without a bound, one with room, one that is full;
-- AppliedOrOpened: push clear and set
theorem witness_room : HasRoom cfg (start 7 []) ∧
    HasRoom other (⟨0, 3#8, [], .running, 0, [], none, none, .reference, [], []⟩ : Engine 8) :=
  ⟨nofun, fun _ h => by cases h; decide⟩
theorem witness_no_room :
    ¬ HasRoom other (⟨0, 3#8, [⟨.or, 1#8⟩], .running, 0, [], none, none, .reference, [], []⟩ : Engine 8) :=
  fun h => absurd (h 1 rfl) (by decide)
-- RunningEngineAlwaysSteps, OutcomeDependsOnOneCell: an unbounded stack; a bracket that fits, one that does not
theorem witness_unbounded : cfg.esDepth = none ∧ (one 0x58410001#32).status = .running := ⟨rfl, rfl⟩
theorem witness_fits (i : Instr) : Fits cfg i (one 0x59410001#32) := fun _ _ _ _ => nofun
theorem witness_not_fits : ¬ Fits other (.div divIf1Push)
    (⟨0, 3#8, [⟨.or, 1#8⟩], .running, 0, [], none, none, .reference, [], []⟩ : Engine 8) :=
  fun h => witness_no_room (h .div divIf1Push rfl rfl)
theorem witness_within_depth :
    (⟨0, 3#8, [⟨.or, 1#8⟩], .running, 0, [], none, none, .reference, [], []⟩ : Engine 8).WithinDepth other :=
  fun _ h => by cases h; decide
theorem witness_within_depth_step :
    askOf 8 (step ⟨other, ⟨0, 3#8, [⟨.or, 1#8⟩], .running, 0, [], none, none, .reference, [], []⟩⟩)
      Engine.status = some (.stopped .programOverrun) := by decide
theorem witness_push : divIf1.push = false ∧ divIf1Push.push = true := by decide
-- DivDividesOrStops: a divisor, and none
theorem witness_div :
    fetched divIf1 (start 7 (at1 if1 2)) ≠ 0 ∧ fetched divIf1 (start 7 []) = 0 ∧ divIf1.push = false := by decide
-- ReservedOpcodesStopTheRun and CloseCombinesWithPendingFrame
theorem witness_reserved :
    (start 7 []).closeOpcode ≠ some .res21 ∧
      ({ start 7 [] with closeOpcode := some .res31 } : Engine 16).closeOpcode = some .res31 := by decide
theorem witness_close_frames :
    (start 7 []).es = [] ∧
      ({ start 0 [] with es := [⟨.div, 7⟩] } : Engine 16).es = ⟨.div, 7⟩ :: [] ∧
      ¬ (TwoOp.and = .div ∧ (start 0 []).acc = 0) ∧ ¬ (TwoOp.div = .div ∧ (start 7 []).acc = 0) := by decide
-- StepRunsDecodedInstruction, and the premise of every statement over Executes
theorem witness_executes : Executes cfg (one 0x58410001#32) (.div divIf1) :=
  ⟨rfl, one_not_spent _, 0x58410001#32, by decide, by decide⟩
-- BudgetCheckCancels: a spent budget of 0, none, and one not exceeded (at its bound and below it)
theorem witness_budget_left :
    ({ start 0 [] with budget := some 1 } : Engine 16).steps ≤ 1 ∧
      ({ start 0 [] with budget := some 1, steps := 1 } : Engine 16).steps ≤ 1 := by decide
theorem witness_spent : Spent { start 0 [] with budget := some 0 } := ⟨0, rfl, Nat.le_refl 0⟩
theorem witness_no_budget : State.reset.engine.budget = none ∧ State.reset.engine.status = .running := by decide
-- OverrunCheckStops: pc = PLEN
theorem witness_overrun :
    ({ one 0xA0000000#32 with pc := 1 } : Engine 16).prog.length ≤ ({ one 0xA0000000#32 with pc := 1 } : Engine 16).pc := by
  decide
-- IllegalOpcodeCheckStops: opcode 21, without a close opcode and with another
theorem witness_illegal :
    (one 0xA8000000#32).prog[0]? = some 0xA8000000#32 ∧ 21 ≤ (0xA8000000#32).toNat / 2 ^ 27 ∧
      (cfg.number Reserved.res22.opcode).toNat ≠ (0xA8000000#32).toNat / 2 ^ 27 := by decide
-- StopCausesExactly, StopsChangeOnlyTheStatus: a step that stops, for each cause
theorem witness_stop_halted : ask (go (one 0xA0000000#32)) Engine.status = some (.stopped .halted) := by decide
theorem witness_stop_division :
    ask (go { one 0x58410001#32 with mem := [] }) Engine.status = some (.stopped .divisionByZero) := by decide
theorem witness_stop_division_at_close :
    ask (go { one 0xA8000000#32 with acc := 0, es := [⟨.div, 7⟩], closeOpcode := some .res21 }) Engine.status =
      some (.stopped .divisionByZero) := by decide
theorem witness_stop_illegal : ask (go (one 0xA8000000#32)) Engine.status = some (.stopped .illegalOpcode) := by
  decide
theorem witness_stop_overrun :
    ask (go { one 0xA8000000#32 with pc := 1 }) Engine.status = some (.stopped .programOverrun) := by decide
theorem witness_stop_cancelled :
    ask (go { one 0xA8000000#32 with budget := some 0 }) Engine.status = some (.stopped .cancelled) := by decide
-- StopIsTerminal: a stopped state, and a run that has stopped
theorem witness_stopped : (runFor 1 ⟨cfg, one 0xA0000000#32⟩).engine.status ≠ .running := by decide
-- PcAndStepCountAfterStep: a step that goes on, a taken transfer, one not taken
theorem witness_step_on : ask (go (one 0x58410001#32)) Engine.status = some .running := by decide
theorem witness_transfer :
    Transfers ⟨false, true, 4⟩ 0#16 ∧ Transfers ⟨true, false, 4⟩ 7#16 ∧ Transfers ⟨true, true, 4⟩ 0#16 ∧
      ¬ Transfers ⟨true, false, 4⟩ 0#16 ∧ ¬ Transfers ⟨true, true, 4⟩ 7#16 := by decide
-- PortUsedAsTheTableSays, OnlyNamedInstructionsWrite, StackTouchedByOpenAndCloseOnly: exec answers a next state
theorem witness_exec_next :
    ask (exec (.div divIf1Push) ⟨cfg, start 7 []⟩) Engine.es = some [⟨.div, 7⟩] ∧
      ask (exec (.halt OFields.zero) ⟨cfg, start 7 []⟩) Engine.acc = some 7 := by decide
-- StackTouchedByOpenAndCloseOnly: push set and clear, a reserved opcode that is not the close
theorem witness_stack_clauses :
    twoOpOf (.div divIf1Push) = some (.div, divIf1Push) ∧ twoOpOf (.div divIf1) = some (.div, divIf1) ∧
      (start 7 []).closeOpcode ≠ some .res21 := by decide
-- StackOnlyGrowsWithoutClose
theorem witness_no_close : State.reset.engine.closeOpcode = none := by decide
-- OutcomeDependsOnOneCell: an instruction that reads, and one that does not; other cells differ, the
-- operand's cell agrees
theorem witness_readers : readerOf (.div divIf1) = some divIf1 ∧ readerOf (.st divIf1) = none := by decide
theorem witness_other_cells :
    ({ start 7 (at1 if1 2) with mem := [(i00.index, 1), (if1.index, 2)] } : Engine 16).cell (operandKey divIf1) =
      (start 7 (at1 if1 2)).cell (operandKey divIf1) := by decide
-- TransferOutsideProgramOverrunsNext (X-J6)
theorem witness_transfer_outside : Executes cfg (one 0x90000005#32) (.jmp ⟨false, false, 5⟩) :=
  ⟨rfl, one_not_spent _, 0x90000005#32, by decide, by decide⟩
theorem witness_transfer_outside_target : (one 0x90000005#32).prog.length ≤ (5#25).toNat := by decide
-- ReferenceMemoryReadsWhatWasWritten: a discrete and a word key, other than each other
theorem witness_keys : q00 ≠ if0 ∧ q00.word = false ∧ if0.word = true := by decide
-- The invariants and a step from a state that meets them
theorem witness_memory_canonical : (one 0x58410001#32).MemoryCanonical := by
  unfold Engine.MemoryCanonical; decide
theorem witness_discrete_boolean : State.reset.engine.DiscreteCellsBoolean := fun _ _ => Or.inl rfl
theorem witness_discrete_boolean_step :
    ask (go { start 0 [] with prog := [0x10090000#32], acc := 7 }) (fun t => t.cell q00) = some 1 := by decide
theorem witness_pc_bounded : (one 0x97FFFFFF#32).PcBounded := by
  unfold Engine.PcBounded; decide
-- InvariantsHoldAtLaunch: cells that are canonical, and boolean where discrete
theorem witness_launch_cells :
    (at1 if0 7).wf = true ∧ ∀ k : Key, k.word = false →
      Memory.read (w := 16) [] k.index = 0 ∨ Memory.read (w := 16) [] k.index = 1 :=
  ⟨by decide, fun _ _ => Or.inl rfl⟩
theorem witness_within_budget : ({ one 0x58410001#32 with budget := some 1 } : Engine 16).WithinBudget :=
  fun _ _ => Nat.zero_le _

end Sys2Proof.Tests
end

section
/-! PROOFS. The statements of the state family: truth and negation, where a step leaves `pc` and `steps`, and
who touches the evaluation stack. -/

namespace Sys2Proof.Machine

variable {p : Params}

/-! ### Where a step leads -/

/-- `taken` is the transfer condition of R150. -/
theorem taken_iff {w : Nat} (f : JFields) (acc : Value w) : taken f acc = true ↔ Transfers f acc := by
  by_cases ha : acc = 0 <;> cases hn : f.negateInstr <;> simp [taken, Transfers, truth, ha, hn]

theorem transferPc_of_transfers {w : Nat} {f : JFields} {s : Engine w} (h : Transfers f s.acc) :
    transferPc f s = f.target.toNat := by
  rw [transferPc, if_pos ((taken_iff f s.acc).mpr h)]

theorem transferPc_of_not_transfers {w : Nat} {f : JFields} {s : Engine w} (h : ¬ Transfers f s.acc) :
    transferPc f s = s.pc + 1 := by
  rw [transferPc, if_neg (mt (taken_iff f s.acc).mp h)]

/-- JMP and CAL complete at `transferPc`, the same one for both (R151, R152). -/
theorem exec_of_transfer {i : Instr} {f : JFields} (hi : i = .jmp f ∨ i = .cal f) (s : Engine p.vw) :
    exec i ⟨p, s⟩ = .next ⟨p, complete (transferPc f s) s⟩ := by
  rcases hi with rfl | rfl <;> rfl

/-- The step of a state that is about to execute an instruction is that instruction (R100). -/
theorem step_of_executes {s : Engine p.vw} {i : Instr} (h : Executes p s i) :
    step ⟨p, s⟩ = exec i ⟨p, s⟩ := by
  obtain ⟨hrun, hbudget, x, hfetch, rfl⟩ := h
  refine step_of_fetch hrun ?_ hfetch
  rw [← Bool.not_eq_true, budgetSpent_iff]
  exact hbudget

/-- An instruction that leaves the engine running has completed. -/
theorem completes_of_running {s t : Engine p.vw} {i : Instr} (h : exec i ⟨p, s⟩ = .next ⟨p, t⟩)
    (ht : t.status = .running) : Completes s t := by
  rcases (outcome_of_next h).2 with hc | ⟨why, hstate, -, -⟩
  · exact hc
  · rw [hstate] at ht
    cases ht

/-- A step that does not leave the engine running has stopped it: only the status and the record of the port
differ (R170). -/
theorem stopped_of_step {s t : Engine p.vw} (h : step ⟨p, s⟩ = .next ⟨p, t⟩) (ht : t.status ≠ .running) :
    ∃ why, t = { raise why s with ports := t.ports } := by
  rcases step_cases p s with ⟨_, _, hs⟩ | ⟨_, _, hs⟩ | ⟨_, _, _, hs⟩ | ⟨_, hrun, _, _, hs⟩ <;> rw [hs] at h
  · cases h
  · cases h
    exact ⟨_, rfl⟩
  · cases h
    exact ⟨_, rfl⟩
  · rcases (outcome_of_next h).2 with hc | ⟨why, hstate, -, -⟩
    · exact absurd (hc.status.trans hrun) ht
    · exact ⟨why, hstate⟩

/-- A two-operand instruction that answers a next state has had room for its frame, and is the template. -/
theorem eq_twoOperand_of_next {s t : Engine p.vw} {i : Instr} {op : TwoOp} {f : OFields}
    (hop : twoOpOf i = some (op, f)) (h : exec i ⟨p, s⟩ = .next ⟨p, t⟩) : t = twoOperand p.alu op f s := by
  rw [exec_of_twoOp hop p s ((outcome_of_next h).1 op f hop)] at h
  cases h
  rfl

/-- Bracketed or not, a two-operand operation that leaves the engine running goes on at the next instruction
(R109). -/
theorem twoOperand_pc {w : Nat} {laws : AluLaws} {op : TwoOp} {f : OFields} {s : Engine w}
    (h : (twoOperand laws op f s).status = .running) : (twoOperand laws op f s).pc = s.pc + 1 := by
  rcases twoOperand_cases laws op f s with ⟨t, ht, ⟨⟨hpc, -⟩, -⟩, -⟩ | ⟨-, -, -, ht⟩
  · rw [ht]
    exact hpc
  · rw [ht] at h
    cases h

/-- A reserved opcode that leaves the engine running is a close, and goes on at the next instruction (R114). -/
theorem reserved_pc {w : Nat} {laws : AluLaws} {r : Reserved} {s : Engine w}
    (h : (reserved laws r s).status = .running) : (reserved laws r s).pc = s.pc + 1 := by
  by_cases hclose : s.closeOpcode = some r
  · rw [reserved, if_pos hclose] at h ⊢
    rcases closeBracket_cases laws s with ⟨-, hc⟩ | ⟨_, _, _, -, -, hc⟩ | ⟨_, _, -, -, -, hc⟩
    · rw [hc, advance_pc]
    · rw [hc, advance_pc, setAcc_pc, setStack_pc]
    · rw [hc] at h
      cases h
  · rw [reserved, if_neg hclose] at h
    cases h

/-- A write on a condition (S, R) leaves `pc`. -/
theorem condWrite_pc {w : Nat} (c : Bool) (f : OFields) (v : Value w) (s : Engine w) :
    (if c then writeOperand f v s else s).pc = s.pc := by
  cases c <;> rfl

/-- Every instruction but JMP and CAL goes on at the next instruction, if it does not stop (R16). -/
theorem pc_of_exec_of_not_transfer {s t : Engine p.vw} {i : Instr} (hi : ∀ f, ¬ (i = .jmp f ∨ i = .cal f))
    (h : exec i ⟨p, s⟩ = .next ⟨p, t⟩) (ht : t.status = .running) : t.pc = s.pc + 1 := by
  rcases instr_kinds i with ⟨f, rfl⟩ | ⟨f, rfl⟩ | ⟨f, rfl⟩ | ⟨f, rfl⟩ | ⟨f, rfl⟩ | ⟨f, rfl⟩ | ⟨f, rfl⟩ |
    ⟨f, rfl⟩ | ⟨op, f, hop⟩ | ⟨r, f, rfl⟩
  · cases h; rfl
  · cases h; rfl
  · cases h; exact congrArg (· + 1) (condWrite_pc _ f 1 s)
  · cases h; exact congrArg (· + 1) (condWrite_pc _ f 0 s)
  · cases h; rfl
  · exact absurd (Or.inl rfl) (hi f)
  · exact absurd (Or.inr rfl) (hi f)
  · cases h; cases ht
  · rw [eq_twoOperand_of_next hop h] at ht ⊢
    exact twoOperand_pc ht
  · rw [exec_reservedInstr] at h
    cases h
    exact reserved_pc ht

/-! ### The evaluation stack -/

/-- Without `push` a two-operand instruction neither reads nor changes the stack (R109). -/
theorem twoOperand_setStack {w : Nat} (laws : AluLaws) (op : TwoOp) {f : OFields} (hf : f.push = false)
    (frames : List (Frame w)) (s : Engine w) :
    twoOperand laws op f (setStack frames s) = setStack frames (twoOperand laws op f s) := by
  have hx : (opnd f (setStack frames s)).1 = (opnd f s).1 := rfl
  have hs : (opnd f (setStack frames s)).2 = setStack frames (opnd f s).2 := rfl
  simp only [twoOperand, hf, Bool.false_eq_true, if_false, hx, hs, setStack_acc]
  cases alu laws op s.acc (opnd f s).1 <;> rfl

/-- A write on a condition (S, R) neither reads nor changes the stack. -/
theorem condWrite_setStack {w : Nat} (c : Bool) (f : OFields) (v : Value w) (frames : List (Frame w))
    (s : Engine w) :
    (if c then writeOperand f v (setStack frames s) else setStack frames s) =
      setStack frames (if c then writeOperand f v s else s) := by
  cases c <;> rfl

/-- R28: an instruction that opens no bracket and is no close gives over any other stack
the same state with that stack. -/
theorem exec_setStack {s t : Engine p.vw} {i : Instr}
    (hopen : ∀ op f, twoOpOf i = some (op, f) → f.push = false)
    (hclose : ∀ r f, i = reservedInstr r f → s.closeOpcode ≠ some r)
    (h : exec i ⟨p, s⟩ = .next ⟨p, t⟩) (frames : List (Frame p.vw)) :
    exec i ⟨p, setStack frames s⟩ = .next ⟨p, setStack frames t⟩ := by
  rcases instr_kinds i with ⟨f, rfl⟩ | ⟨f, rfl⟩ | ⟨f, rfl⟩ | ⟨f, rfl⟩ | ⟨f, rfl⟩ | ⟨f, rfl⟩ | ⟨f, rfl⟩ |
    ⟨f, rfl⟩ | ⟨op, f, hop⟩ | ⟨r, f, rfl⟩
  · cases h; rfl
  · cases h; rfl
  · cases h
    exact congrArg (fun e => Host.Outcome.next (State.mk p (advance e))) (condWrite_setStack _ f 1 frames s)
  · cases h
    exact congrArg (fun e => Host.Outcome.next (State.mk p (advance e))) (condWrite_setStack _ f 0 frames s)
  · cases h; rfl
  · cases h; rfl
  · cases h; rfl
  · cases h; rfl
  · have hf := hopen op f hop
    rw [eq_twoOperand_of_next hop h, exec_of_twoOp hop p _ (by simp [hf]), twoOperand_setStack p.alu op hf]
  · have hr := hclose r f rfl
    rw [exec_reservedInstr, reserved, if_neg hr] at h
    cases h
    rw [exec_reservedInstr, reserved, setStack_closeOpcode, if_neg hr]
    rfl

/-- The stack of an engine set to the one it has. -/
theorem setStack_es_self {w : Nat} (s : Engine w) : setStack s.es s = s := rfl

/-- What does not depend on the stack leaves it: put the stack it has in its own place. -/
theorem es_of_exec_of_untouched {s t : Engine p.vw} {i : Instr}
    (hopen : ∀ op f, twoOpOf i = some (op, f) → f.push = false)
    (hclose : ∀ r f, i = reservedInstr r f → s.closeOpcode ≠ some r)
    (h : exec i ⟨p, s⟩ = .next ⟨p, t⟩) : t.es = s.es := by
  have hself := exec_setStack hopen hclose h s.es
  rw [setStack_es_self, h] at hself
  injection hself with hstate
  injection hstate with _ hengine
  rw [hengine, setStack_es]

/-- A two-operand instruction with `push` opens the frame of its operator and the accumulator (R109). -/
theorem es_of_exec_of_push {s t : Engine p.vw} {i : Instr} {op : TwoOp} {f : OFields}
    (hop : twoOpOf i = some (op, f)) (hpush : f.push = true) (h : exec i ⟨p, s⟩ = .next ⟨p, t⟩) :
    t.es = ⟨op, s.acc⟩ :: s.es := by
  rw [eq_twoOperand_of_next hop h]
  rcases twoOperand_cases p.alu op f s with ⟨u, hu, ⟨-, -, -, -, hopened⟩, -⟩ | ⟨hnopush, -, -, -⟩
  · rw [hu]
    exact (hopened hpush).1
  · rw [hpush] at hnopush
    cases hnopush

/-- The operator number of the frame an instruction opens is its own opcode number (R27). -/
theorem frame_number_of_twoOp {i : Instr} {op : TwoOp} {f : OFields} (hop : twoOpOf i = some (op, f))
    (p : Params) (acc : Value p.vw) : Frame.number p ⟨op, acc⟩ = opcodeBits (encode p i) := by
  rw [opcodeBits_encode, opcode_of_twoOp hop, Frame.number]

/-- A close with a frame pops it, unless it divides by zero (R114). -/
theorem closeBracket_es {w : Nat} {laws : AluLaws} {s : Engine w} {fr : Frame w} {rest : List (Frame w)}
    (he : s.es = fr :: rest) (hdiv : ¬ (fr.op = .div ∧ s.acc = 0)) : (closeBracket laws s).es = rest := by
  rcases closeBracket_cases laws s with ⟨he', -⟩ | ⟨_, _, _, he', -, hc⟩ | ⟨_, _, he', hop, hacc, -⟩ <;>
    cases he.symm.trans he'
  · rw [hc, advance_es, setAcc_es, setStack_es]
  · exact absurd ⟨hop, hacc⟩ hdiv

/-! ### The statements -/

/-- Settles O10: the three equations of `truth` and `neg`, at every width. -/
theorem truthAndBooleanNegation : Obligations.TruthAndBooleanNegation := by
  intro w v
  refine ⟨truth_iff v, rfl, ?_, fun hv => ?_⟩
  · rw [neg_eq_ite, if_pos rfl]
  · rw [neg_eq_ite, if_neg hv]

/-- Settles O41: a stop keeps `pc` and `steps`; a step that goes on has completed, at `transferPc` for
JMP and CAL and at the next instruction for the others. -/
theorem pcAndStepCountAfterStep : Obligations.PcAndStepCountAfterStep := by
  refine ⟨fun p s t h ht => ?_, fun p s t i hi h ht => ?_⟩
  · obtain ⟨why, hstate⟩ := stopped_of_step h ht
    rw [hstate]
    exact ⟨rfl, rfl⟩
  · rw [step_of_executes hi] at h
    refine ⟨(completes_of_running h ht).steps, fun f hf htaken => ?_, fun hnot => ?_⟩
    · rw [exec_of_transfer hf] at h
      cases h
      exact transferPc_of_transfers htaken
    · by_cases hj : ∃ f, i = .jmp f ∨ i = .cal f
      · obtain ⟨f, hf⟩ := hj
        rw [exec_of_transfer hf] at h
        cases h
        exact transferPc_of_not_transfers (hnot f hf)
      · exact pc_of_exec_of_not_transfer (not_exists.mp hj) h ht

/-- Settles O47: the frame opened, the frame popped, the independence of every other execution, and the stop. -/
theorem stackTouchedByOpenAndCloseOnly : Obligations.StackTouchedByOpenAndCloseOnly := by
  refine ⟨fun i p s t h => ⟨fun op f hop hpush => ?_, fun r f fr rest hi hclose he hdiv => ?_,
    fun hopen hclose => ?_⟩, fun p s t h ht => ?_⟩
  · exact ⟨es_of_exec_of_push hop hpush h, frame_number_of_twoOp hop p s.acc⟩
  · rw [hi, exec_reservedInstr, reserved, if_pos hclose] at h
    cases h
    exact closeBracket_es he hdiv
  · exact ⟨es_of_exec_of_untouched hopen hclose h, exec_setStack hopen hclose h⟩
  · obtain ⟨why, hstate⟩ := stopped_of_step h ht
    rw [hstate]
    rfl

end Sys2Proof.Machine
end

section
/-! PROOFS. The statements of the memory family: what no step of a run changes, what the reference memory
answers after a write, and how each instruction uses the port. -/

namespace Sys2Proof.Machine

variable {w : Nat} {p : Params}

/-! ### What a run keeps -/

theorem sameInputs_trans {s t u : Engine w} (hst : SameInputs s t) (htu : SameInputs t u) :
    SameInputs s u := by
  obtain ⟨hprog, hbudget, hclose, hstorage⟩ := hst
  obtain ⟨hprog', hbudget', hclose', hstorage'⟩ := htu
  exact ⟨hprog'.trans hprog, hbudget'.trans hbudget, hclose'.trans hclose, hstorage'.trans hstorage⟩

/-- Completed or stopped, an instruction leaves the inputs of the run (R14). -/
theorem sameInputs_of_outcome {s t : Engine w} (h : Outcome s t) : SameInputs s t := by
  rcases h with hc | ⟨why, hstate, -, -⟩
  · exact hc.inputs
  · rw [hstate]
    exact sameInputs_refl s

/-- One step leaves the inputs of the run, whether it is a check that stops the run or an instruction. -/
theorem sameInputs_of_step {s t : Engine p.vw} (h : step ⟨p, s⟩ = .next ⟨p, t⟩) : SameInputs s t := by
  rcases step_cases p s with ⟨_, -, hs⟩ | ⟨-, -, hs⟩ | ⟨-, -, -, hs⟩ | ⟨x, -, -, -, hs⟩ <;> rw [hs] at h
  · cases h
  · cases h
    exact sameInputs_refl s
  · cases h
    exact sameInputs_refl s
  · exact sameInputs_of_outcome (outcome_of_next h).2

/-- A step answers a state of the same configuration (R14), or does not happen. -/
theorem step_next_or_fault (p : Params) (s : Engine p.vw) :
    (∃ t : Engine p.vw, step ⟨p, s⟩ = .next ⟨p, t⟩) ∨ ∃ why, step ⟨p, s⟩ = .fault why := by
  rcases step_cases p s with ⟨_, -, hs⟩ | ⟨-, -, hs⟩ | ⟨-, -, -, hs⟩ | ⟨x, -, -, -, hs⟩
  · exact Or.inr ⟨_, hs⟩
  · exact Or.inl ⟨_, hs⟩
  · exact Or.inl ⟨_, hs⟩
  · rw [hs]
    rcases exec_cases (decode p x) p s with ⟨-, t, ht, -⟩ | ⟨-, ht⟩
    · exact Or.inl ⟨t, ht⟩
    · exact Or.inr ⟨_, ht⟩

theorem runFor_succ_of_next {s t : State} (n : Nat) (h : step s = .next t) : runFor (n + 1) s = runFor n t := by
  rw [runFor, h]

theorem runFor_succ_of_fault {s : State} {why : Fault} (n : Nat) (h : step s = .fault why) :
    runFor (n + 1) s = s := by
  rw [runFor, h]

/-- A run stays in its configuration, and what holds at its start and is kept by every step holds at its
end. -/
theorem runFor_keeps {inv : Engine p.vw → Prop}
    (hstep : ∀ s t, inv s → step ⟨p, s⟩ = .next ⟨p, t⟩ → inv t) (n : Nat) {s : Engine p.vw} (hs : inv s) :
    ∃ t, runFor n ⟨p, s⟩ = ⟨p, t⟩ ∧ inv t := by
  induction n generalizing s with
  | zero => exact ⟨s, rfl, hs⟩
  | succ n ih =>
    rcases step_next_or_fault p s with ⟨t, ht⟩ | ⟨why, hwhy⟩
    · rw [runFor_succ_of_next n ht]
      exact ih (hstep s t hs ht)
    · exact ⟨s, runFor_succ_of_fault n hwhy, hs⟩

/-! ### The reference memory -/

/-- A read of the reference memory answers the cell (R52). -/
theorem memRead_of_reference {s : Engine w} (k : Key) (h : s.storage = .reference) :
    (memRead k s).1 = s.cell k := by
  rw [memRead_value, portAnswer, h]

/-- With no cell listed every read of the reference memory answers 0 (R52). -/
theorem memRead_of_unlisted {s : Engine w} (k : Key) (h : s.storage = .reference) (hmem : s.mem = []) :
    (memRead k s).1 = 0 := by
  rw [memRead_of_reference k h, Engine.cell, hmem]
  rfl

/-! ### The use of the port -/

/-- Bracketed or not, also when it stops, a two-operand operation has read its operand once (R109, R166). -/
theorem twoOperand_oneRead (laws : AluLaws) (op : TwoOp) (f : OFields) (s : Engine w) :
    OneRead f s (twoOperand laws op f s) := by
  rcases twoOperand_cases laws op f s with ⟨t, ht, ⟨-, -, hread, -, -⟩, -⟩ | ⟨-, -, -, ht⟩
  · rw [ht]
    exact hread
  · rw [ht]
    rfl

/-- The close, whether it completes or stops, makes no access (R45). -/
theorem closeBracket_noAccess (laws : AluLaws) (s : Engine w) : NoAccess s (closeBracket laws s) := by
  rcases closeBracket_cases laws s with ⟨-, hc⟩ | ⟨_, _, _, -, -, hc⟩ | ⟨_, _, -, -, -, hc⟩ <;> rw [hc] <;> rfl

/-- A reserved opcode makes no access, the close included (R45). -/
theorem reserved_noAccess (laws : AluLaws) (r : Reserved) (s : Engine w) : NoAccess s (reserved laws r s) := by
  by_cases hclose : s.closeOpcode = some r
  · rw [reserved, if_pos hclose]
    exact closeBracket_noAccess laws s
  · rw [reserved, if_neg hclose]
    rfl

/-- A write on a condition (S, R): one write where the accumulator is true, no access where it is not. -/
theorem condWrite_portUse (f : OFields) (v : Value w) (s : Engine w) :
    (s.acc ≠ 0 → ∃ u, OneWrite f u s (advance (if truth s.acc then writeOperand f v s else s))) ∧
      (s.acc = 0 → NoAccess s (advance (if truth s.acc then writeOperand f v s else s))) := by
  refine ⟨fun hacc => ⟨v, ?_⟩, fun hacc => ?_⟩
  · rw [(truth_iff s.acc).mpr hacc]
    rfl
  · rw [(truth_false_iff s.acc).mpr hacc]
    rfl

/-- The table of R45 asks one read of every two-operand instruction. -/
theorem portUse_of_twoOp {i : Instr} {op : TwoOp} {f : OFields} {s t : Engine w}
    (hop : twoOpOf i = some (op, f)) (hread : OneRead f s t) : PortUse i s t := by
  cases i <;> simp only [twoOpOf, Option.some.injEq, Prod.mk.injEq, reduceCtorEq] at hop <;>
    (obtain ⟨-, rfl⟩ := hop; exact hread)

/-- The table of R45 asks no access of every reserved opcode. -/
theorem portUse_of_reserved (r : Reserved) (f : OFields) {s t : Engine w} (h : NoAccess s t) :
    PortUse (reservedInstr r f) s t := by
  cases r <;> exact h

/-! ### The statements -/

/-- Settles O42: having the inputs of the start is kept by every step, hence by the run. -/
theorem inputsFixedThroughRun : Obligations.InputsFixedThroughRun := by
  intro n p s
  exact runFor_keeps (inv := SameInputs s)
    (fun _ _ hkept hstep => sameInputs_trans hkept (sameInputs_of_step hstep)) n (sameInputs_refl s)

/-- Settles O44: a read answers the cell, and a write sets the cell of its key to what it keeps and no other. -/
theorem referenceMemoryReadsWhatWasWritten : Obligations.ReferenceMemoryReadsWhatWasWritten := by
  intro w k v s hwf href
  have hwritten : (memWrite k v s).storage = .reference := href
  refine ⟨?_, fun l hl => ?_, ?_⟩
  · rw [memRead_of_reference k hwritten, memWrite_cell_same v s hwf href, kept_eq_keptOf, keptOf]
  · rw [memRead_of_reference l hwritten, memRead_of_reference l href, memWrite_cell_other v s hl]
  · exact memRead_of_unlisted k href rfl

/-- Settles O45: one case per row of the table of R45. -/
theorem portUsedAsTheTableSays : Obligations.PortUsedAsTheTableSays := by
  intro i p s t h
  rcases instr_kinds i with ⟨f, rfl⟩ | ⟨f, rfl⟩ | ⟨f, rfl⟩ | ⟨f, rfl⟩ | ⟨f, rfl⟩ | ⟨f, rfl⟩ | ⟨f, rfl⟩ |
    ⟨f, rfl⟩ | ⟨op, f, hop⟩ | ⟨r, f, rfl⟩
  · cases h; exact rfl
  · cases h; exact ⟨_, rfl⟩
  · cases h; exact condWrite_portUse f 1 s
  · cases h; exact condWrite_portUse f 0 s
  · cases h; exact rfl
  · cases h; exact rfl
  · cases h; exact rfl
  · cases h; exact rfl
  · rw [eq_twoOperand_of_next hop h]
    exact portUse_of_twoOp hop (twoOperand_oneRead p.alu op f s)
  · rw [exec_reservedInstr] at h
    cases h
    exact portUse_of_reserved r f (reserved_noAccess p.alu r s)

end Sys2Proof.Machine
end

section
/-! PROOFS. The statements of the encoding family: decoding after encoding, an encoded word as a number, the
raw fields as slices, the choice of format and of the table row, and the ignored fields. -/

namespace Sys2Proof

/-! ### Fields placed in a word, as numbers -/

/-- A placed field that fits below bit 32 is its value at its weight. -/
theorem toNat_placeBits {n : Nat} (b : BitVec n) {lo : Nat} (hfit : n + lo ≤ 32) :
    (placeBits b lo).toNat = b.toNat * 2 ^ lo := by
  have hlt : b.toNat * 2 ^ lo < 2 ^ 32 := calc
    b.toNat * 2 ^ lo < 2 ^ n * 2 ^ lo := Nat.mul_lt_mul_of_pos_right b.isLt (Nat.two_pow_pos lo)
    _ = 2 ^ (n + lo) := (Nat.pow_add 2 n lo).symm
    _ ≤ 2 ^ 32 := Nat.pow_le_pow_right Nat.two_pos hfit
  rw [placeBits, BitVec.toNat_shiftLeft, BitVec.toNat_setWidth_of_le (by omega), Nat.shiftLeft_eq,
    Nat.mod_eq_of_lt hlt]

/-- A field joined to a word that has only bits above it: the number grows by the field's digits, as in
Horner's scheme. -/
theorem toNat_or_placeBits {n lo q : Nat} {x : Word} (b : BitVec n) (hfit : n + lo ≤ 32)
    (hx : x.toNat = q * 2 ^ (n + lo)) :
    (x ||| placeBits b lo).toNat = (q * 2 ^ n + b.toNat) * 2 ^ lo := by
  rw [BitVec.toNat_or, toNat_placeBits b hfit, hx, Nat.pow_add, ← Nat.mul_assoc, ← Nat.shiftLeft_eq,
    ← Nat.shiftLeft_eq b.toNat, ← Nat.shiftLeft_or_distrib, Nat.shiftLeft_eq, Nat.mul_comm q,
    Nat.two_pow_add_eq_or_of_lt b.isLt]

/-- A flag joined to a word that has only bits above it. -/
theorem toNat_or_placeFlag {lo q : Nat} {x : Word} (b : Bool) (hfit : 1 + lo ≤ 32)
    (hx : x.toNat = q * 2 ^ (1 + lo)) :
    (x ||| placeFlag b lo).toNat = (q * 2 + b.toNat) * 2 ^ lo := by
  rw [placeFlag, toNat_or_placeBits _ hfit hx, BitVec.toNat_ofBool, Nat.pow_one]

/-! ### Slices of a word, as numbers -/

theorem toNat_slice (w : Word) (hi lo : Nat) :
    (w.slice hi lo).toNat = w.toNat / 2 ^ lo % 2 ^ (hi - lo + 1) := by
  rw [Word.slice, BitVec.extractLsb_toNat, Nat.shiftRight_eq_div_pow]

theorem toNat_bit (w : Word) (i : Nat) : (w.bit i).toNat = w.toNat / 2 ^ i % 2 :=
  Nat.toNat_testBit w.toNat i

/-- The opcode bits are the top of the word: nothing is left to cut off above them. -/
theorem toNat_opcodeBits (w : Word) : (opcodeBits w).toNat = w.toNat / 2 ^ 27 := by
  rw [opcodeBits, toNat_slice]
  exact Nat.mod_eq_of_lt (Nat.div_lt_of_lt_mul w.isLt)

/-! ### Format and row by the opcode number -/

theorem decodeFields_of_isJump {p : Params} {w : Word} (h : isJump p (opcodeBits w) = true) :
    decodeFields p w = .j (opcodeBits w) (jFields w) := by
  rw [decodeFields, if_pos h]

theorem decodeFields_of_not_isJump {p : Params} {w : Word} (h : isJump p (opcodeBits w) = false) :
    decodeFields p w = .o (opcodeBits w) (oFields w) := by
  rw [decodeFields, h, if_neg Bool.false_ne_true]

/-- `is_jump` of R61 on the numbers themselves. -/
theorem isJump_iff_toNat (p : Params) (n : BitVec 5) :
    isJump p n = true ↔ n.toNat = (p.number .jmp).toNat ∨ n.toNat = (p.number .cal).toNat := by
  simp only [isJump, Bool.or_eq_true, beq_iff_eq, BitVec.toNat_inj]

theorem opcodeBits_placeBits (n : BitVec 5) : opcodeBits (placeBits n 27) = n := by
  revert n
  decide

/-- A word that a row's base word matches under the mask has the row's opcode number (R76). -/
theorem opcodeBits_of_mask {w : Word} {o : Opcode} (h : w &&& 0xF8000000#32 = o.baseWord) :
    opcodeBits w = Params.default.number o := by
  rw [and_mask, ← o.placeBits_number] at h
  rw [← opcodeBits_placeBits (opcodeBits w), h, opcodeBits_placeBits]

/-- A word that a row's base word matches under the mask is the row's instruction (R76). -/
theorem decode_of_mask {w : Word} {o : Opcode} (h : w &&& 0xF8000000#32 = o.baseWord) :
    decode Params.default w = instrOf o w := by
  rw [decode, opcodeBits_of_mask h, Params.opcode_number]

/-! ### The statements about words -/

/-- Settles O1: the encoded word has the record's opcode number, hence by well-formedness its format, and
the fields of that format are the record's. -/
theorem codecDecodeAfterEncode : Obligations.CodecDecodeAfterEncode := by
  intro p r hwf
  cases r with
  | o n f =>
    have hjump : isJump p n = false := by simpa [Fields.wf] using hwf
    rw [decodeFields_of_not_isJump (by rw [opcodeBits_encode_o, hjump]), opcodeBits_encode_o, oFields_encode_o]
  | j n f =>
    rw [decodeFields_of_isJump (by rw [opcodeBits_encode_j]; exact hwf), opcodeBits_encode_j, jFields_encode_j]

/-- Settles O4: the fields joined one after the other from the opcode down. -/
theorem formatOWordIsSumOfFields : Obligations.FormatOWordIsSumOfFields := by
  intro n f
  have opcode := toNat_placeBits n (lo := 27) (by decide)
  have cond := toNat_or_placeFlag f.cond (lo := 26) (by decide) opcode
  have negateInstr := toNat_or_placeFlag f.negateInstr (lo := 25) (by decide) cond
  have push := toNat_or_placeFlag f.push (lo := 24) (by decide) negateInstr
  have ret := toNat_or_placeFlag f.ret (lo := 23) (by decide) push
  have word := toNat_or_placeFlag f.word (lo := 22) (by decide) ret
  have negateArg := toNat_or_placeFlag f.negateArg (lo := 21) (by decide) word
  have kind := toNat_or_placeBits f.kind (lo := 16) (by decide) negateArg
  have byte := toNat_or_placeBits f.byte (lo := 8) (by decide) kind
  have bit := toNat_or_placeBits f.bit (lo := 0) (by decide) byte
  rw [encodeFields, bit]
  ring

/-- Settles O5: as for format O, with the jump target below the flags. -/
theorem formatJWordIsSumOfFields : Obligations.FormatJWordIsSumOfFields := by
  intro n f
  have opcode := toNat_placeBits n (lo := 27) (by decide)
  have cond := toNat_or_placeFlag f.cond (lo := 26) (by decide) opcode
  have negateInstr := toNat_or_placeFlag f.negateInstr (lo := 25) (by decide) cond
  have target := toNat_or_placeBits f.target (lo := 0) (by decide) negateInstr
  rw [encodeFields, target]
  ring

/-- Settles O6: every raw field is a slice or a bit of the word. -/
theorem rawFieldsArePlainSlices : Obligations.RawFieldsArePlainSlices := by
  intro w
  have low (hi : Nat) : (w.slice hi 0).toNat = w.toNat % 2 ^ (hi + 1) := by
    rw [toNat_slice, Nat.pow_zero, Nat.div_one, Nat.sub_zero]
  exact ⟨toNat_slice w 31 27, toNat_bit w 26, toNat_bit w 26, toNat_bit w 25, toNat_bit w 25, toNat_bit w 24,
    toNat_bit w 23, toNat_bit w 22, toNat_bit w 21, toNat_slice w 20 16, toNat_slice w 15 8, low 7, low 15,
    low 24⟩

/-- Settles O7: `decode` tests the opcode bits, which are the word divided by `2^27`. -/
theorem formatJExactlyForJumpOpcodes : Obligations.FormatJExactlyForJumpOpcodes := by
  refine ⟨fun p w => ?_, by decide, by decide⟩
  rw [← toNat_opcodeBits]
  refine ⟨fun h => ⟨_, _, decodeFields_of_isJump ((isJump_iff_toNat p _).mpr h)⟩,
    fun hjmp hcal => ⟨_, _, decodeFields_of_not_isJump ?_⟩⟩
  rw [← Bool.not_eq_true, isJump_iff_toNat, not_or]
  exact ⟨hjmp, hcal⟩

/-- Settles O8: the one lemma on the mask, at each of the table's rows. -/
theorem everyTableRowSelectsItsInstruction : Obligations.EveryTableRowSelectsItsInstruction := by
  rintro w _ rfl
  have row (o : Opcode) : w &&& 0xF8000000#32 = o.baseWord → decode Params.default w = instrOf o w :=
    decode_of_mask
  exact ⟨row .ld, row .st, row .s, row .r, row .and, row .or, row .xor, row .not, row .add, row .sub, row .mul,
    row .div, row .gt, row .ge, row .eq, row .ne, row .le, row .lt, row .jmp, row .cal, row .halt, row .res21,
    row .res22, row .res23, row .res24, row .res25, row .res26, row .res27, row .res28, row .res29, row .res30,
    row .res31⟩

/-! ### Ignored fields -/

namespace Machine

/-- `negate_instr` matters only where `cond` is set (R150), so the plain form transfers alike. -/
theorem taken_plain {w : Nat} (f : JFields) (acc : Value w) : taken f.plain acc = taken f acc := by
  cases h : f.cond <;> simp [taken, JFields.plain, h]

theorem transferPc_plain {w : Nat} (f : JFields) (s : Engine w) : transferPc f.plain s = transferPc f s := by
  rw [transferPc, taken_plain]
  rfl

/-- The template reads `push`, the operand key and `negate_arg`, which the plain form keeps (R79, R109). -/
theorem execTwoOperand_plain (op : TwoOp) (f : OFields) (s : State) :
    execTwoOperand op f.plainTwoOp s = execTwoOperand op f s := rfl

theorem twoOpOf_plain {i : Instr} {op : TwoOp} {f : OFields} (h : twoOpOf i = some (op, f)) :
    twoOpOf i.plain = some (op, f.plainTwoOp) := by
  cases i <;> simp only [twoOpOf, Option.some.injEq, Prod.mk.injEq, reduceCtorEq] at h <;>
    (obtain ⟨rfl, rfl⟩ := h; rfl)

theorem plain_reservedInstr (r : Reserved) (f : OFields) :
    (reservedInstr r f).plain = reservedInstr r .zero := by
  cases r <;> rfl

/-- Settles O32: LD, ST, S and R use their fields through the operand alone (and LD and ST `negate_arg`), a
transfer through `transferPc`, the template through what its plain form keeps, and the others read no
field. -/
theorem ignoredFieldsHaveNoEffect : Obligations.IgnoredFieldsHaveNoEffect := by
  intro i p s
  rcases instr_kinds i with ⟨f, rfl⟩ | ⟨f, rfl⟩ | ⟨f, rfl⟩ | ⟨f, rfl⟩ | ⟨f, rfl⟩ | ⟨f, rfl⟩ | ⟨f, rfl⟩ |
    ⟨f, rfl⟩ | ⟨op, f, hop⟩ | ⟨r, f, rfl⟩
  · rfl
  · rfl
  · rfl
  · rfl
  · rfl
  · rw [Instr.plain, exec_of_transfer (.inl rfl), exec_of_transfer (.inl rfl), transferPc_plain]
  · rw [Instr.plain, exec_of_transfer (.inr rfl), exec_of_transfer (.inr rfl), transferPc_plain]
  · rfl
  · rw [exec_eq_twoOperand hop, exec_eq_twoOperand (twoOpOf_plain hop), execTwoOperand_plain]
  · rw [plain_reservedInstr, exec_reservedInstr, exec_reservedInstr]

end Machine

end Sys2Proof
end

section
/-! PROOFS. The statements of the step family: the table of `alu`, the close instruction, and the checks of a
step for the budget, the end of the program and an illegal opcode. -/

namespace Sys2Proof.Machine

/-! ### The rows of `alu` under the default laws -/

section Alu

variable {w : Nat} {op : TwoOp} {a x : Value w}

/-- A truth value as a value, by the condition it decides. -/
theorem b2v_of_iff {b : Bool} {q : Prop} [Decidable q] (h : b = true ↔ q) :
    (b2v b : Value w) = if q then 1 else 0 := by
  rw [b2v, if_congr h rfl rfl]

/-- `wrap(n)` agrees with `n` modulo `2^VW` (R8). -/
theorem wrapsTo_wrap (n : Int) : WrapsTo (wrap n : Value w) n := by
  have hread : (wrap n : Value w).toInt = n.bmod (2 ^ w) := sval_wrap n
  rw [WrapsTo, hread]
  exact bmod_modEq n

/-- A row of the table whose result is a truth value (R125 to R127, R140 to R146). -/
theorem alu_default_of_truth {b : Bool} {q : Prop} [Decidable q] (hop : op ≠ .div)
    (hresult : aluResult .default op a x = b2v b) (hq : b = true ↔ q) :
    alu .default op a x = some (if q then 1 else 0) := by
  rw [alu_of_result fun h => hop h.1, hresult, b2v_of_iff hq]

/-- A row of the table whose result is an integer, wrapped (R130 to R134). -/
theorem alu_default_of_wrap {n : Int} (hop : ¬ (op = .div ∧ x = 0))
    (hresult : aluResult .default op a x = wrap n) :
    ∃ v, alu .default op a x = some v ∧ WrapsTo v n :=
  ⟨wrap n, by rw [alu_of_result hop, hresult], wrapsTo_wrap n⟩

theorem truth_and_iff : (truth a && truth x) = true ↔ a ≠ 0 ∧ x ≠ 0 := by
  rw [Bool.and_eq_true, truth_iff, truth_iff]

theorem truth_or_iff : (truth a || truth x) = true ↔ a ≠ 0 ∨ x ≠ 0 := by
  rw [Bool.or_eq_true, truth_iff, truth_iff]

theorem truth_xor_iff : (truth a ^^ truth x) = true ↔ (a ≠ 0 ∧ x = 0) ∨ (a = 0 ∧ x ≠ 0) := by
  rw [Bool.xor_iff_ne, ← truth_iff, ← truth_iff, ← truth_false_iff, ← truth_false_iff]
  cases truth a <;> cases truth x <;> decide

/-- The default quotient is Lean's, truncated toward zero (R130). -/
theorem aluResult_default_div (a x : Value w) :
    aluResult .default .div a x = wrap (Int.tdiv a.toInt x.toInt) :=
  congrArg wrap (tdiv_eq a.toInt x.toInt)

end Alu

/-- Settles O11: each row is a truth value or a wrapped integer, and DIV by zero alone has no result. -/
theorem aluTable : Obligations.AluTable := by
  intro w a x
  refine ⟨?and, ?or, ?xor, ?add, ?sub, ?mul, ?divZero, ?div, ?gt, ?ge, ?eq, ?ne, ?le, ?lt⟩
  case and => exact alu_default_of_truth (by decide) rfl truth_and_iff
  case or => exact alu_default_of_truth (by decide) rfl truth_or_iff
  case xor => exact alu_default_of_truth (by decide) rfl truth_xor_iff
  case add => exact alu_default_of_wrap nofun rfl
  case sub => exact alu_default_of_wrap nofun rfl
  case mul => exact alu_default_of_wrap nofun rfl
  case divZero => exact fun hx => (alu_none_iff .default .div a x).mpr ⟨rfl, hx⟩
  case div => exact fun hx => alu_default_of_wrap (fun h => hx h.2) (aluResult_default_div a x)
  case gt => exact alu_default_of_truth (by decide) rfl decide_eq_true_iff
  case ge => exact alu_default_of_truth (by decide) rfl decide_eq_true_iff
  case eq => exact alu_default_of_truth (by decide) rfl (decide_eq_true_iff.trans BitVec.toInt_inj)
  case ne => exact alu_default_of_truth (by decide) rfl (decide_eq_true_iff.trans BitVec.toInt_ne)
  case le => exact alu_default_of_truth (by decide) rfl decide_eq_true_iff
  case lt => exact alu_default_of_truth (by decide) rfl decide_eq_true_iff

/-! ### The close instruction -/

section Close

variable {w : Nat} {laws : AluLaws} {r : Reserved} {s : Engine w}

/-- The reserved opcode that is `CLOSE_OPCODE` is the close (R115). -/
theorem reserved_of_close (hclose : s.closeOpcode = some r) : reserved laws r s = closeBracket laws s := by
  rw [reserved, if_pos hclose]

/-- A reserved opcode that is not `CLOSE_OPCODE` is illegal (R104, R154). -/
theorem reserved_of_not_close (hclose : s.closeOpcode ≠ some r) :
    reserved laws r s = raise .illegalOpcode s := by
  rw [reserved, if_neg hclose]

theorem closeBracket_of_empty (he : s.es = []) : closeBracket laws s = advance s := by
  simp only [closeBracket, he]

theorem closeBracket_of_frame {fr : Frame w} {rest : List (Frame w)} (he : s.es = fr :: rest)
    (hdiv : ¬ (fr.op = .div ∧ s.acc = 0)) :
    closeBracket laws s = advance (setAcc (aluResult laws fr.op fr.acc s.acc) (setStack rest s)) := by
  simp only [closeBracket, he, alu_of_result hdiv]

theorem closeBracket_of_divByZero {fr : Frame w} {rest : List (Frame w)} (he : s.es = fr :: rest)
    (hop : fr.op = .div) (hacc : s.acc = 0) : closeBracket laws s = raise .divisionByZero s := by
  simp only [closeBracket, he, (alu_none_iff laws fr.op fr.acc s.acc).mpr ⟨hop, hacc⟩]

end Close

/-- Settles O31: the three cases of the close, each with its frame. -/
theorem closeCombinesWithPendingFrame : Obligations.CloseCombinesWithPendingFrame := by
  intro r f p s hclose
  simp only [exec_reservedInstr, reserved_of_close hclose]
  refine ⟨fun he => ?empty, fun op a rest he => ⟨fun hdiv => ?applied, fun hop hacc => ?divByZero⟩⟩
  case empty =>
    rw [closeBracket_of_empty he]
    exact ⟨_, rfl, advance_completed rfl rfl rfl (sameInputs_refl s), rfl, he, fun _ => rfl, rfl⟩
  case applied =>
    rw [closeBracket_of_frame he hdiv]
    exact ⟨_, rfl, advance_completed rfl rfl rfl (sameInputs_refl s), alu_of_result hdiv, rfl,
      fun _ => rfl, rfl⟩
  case divByZero =>
    rw [closeBracket_of_divByZero he hop hacc]
    exact ⟨_, rfl, raise_stopped .divisionByZero s, rfl⟩

/-! ### The checks of a step -/

section Checks

variable {p : Params} {s t : Engine p.vw}

/-- The budget check lets the step go on exactly where the budget is not spent (R101). -/
theorem budgetSpent_false_iff {w : Nat} (s : Engine w) : budgetSpent s = false ↔ ¬ Spent s := by
  rw [← Bool.not_eq_true, budgetSpent_iff, Spent]

/-- A budget that was not given is never spent (R101). -/
theorem not_spent_of_no_budget {w : Nat} {s : Engine w} (h : s.budget = none) : ¬ Spent s := by
  rintro ⟨b, hb, -⟩
  cases h.symm.trans hb

/-- No instruction ends in `Cancelled` (R101, R160). -/
theorem not_cancelled_of_outcome {w : Nat} {s t : Engine w} (hrun : s.status = .running) (h : Outcome s t) :
    t.status ≠ .stopped .cancelled := by
  rcases h with hc | ⟨why, hstate, -, hcause⟩
  · rw [hc.status, hrun]
    nofun
  · rw [hstate]
    rcases hcause with rfl | rfl | rfl <;> nofun

/-- A step that does not find its budget spent does not end in `Cancelled` (R101). -/
theorem not_cancelled_of_step (hbudget : ¬ Spent s) (h : step ⟨p, s⟩ = .next ⟨p, t⟩) :
    t.status ≠ .stopped .cancelled := by
  rcases step_cases p s with ⟨_, -, hs⟩ | ⟨-, hspent, -⟩ | ⟨-, -, -, hs⟩ | ⟨x, hrun, -, -, hs⟩
  · rw [hs] at h
    cases h
  · exact absurd ((budgetSpent_iff s).mp hspent) hbudget
  · rw [hs] at h
    cases h
    nofun
  · rw [hs] at h
    exact not_cancelled_of_outcome hrun (outcome_of_next h).2

/-- An instruction that starts before the budget is spent ends within it: it counts one step or none. -/
theorem withinBudget_of_outcome {w : Nat} {s t : Engine w} (hbudget : ¬ Spent s) (h : Outcome s t) :
    t.WithinBudget := by
  intro b hb
  obtain ⟨-, hsame, -⟩ := sameInputs_of_outcome h
  have hlt : s.steps < b := Nat.lt_of_not_le fun hle => hbudget ⟨b, hsame.symm.trans hb, hle⟩
  rcases h with hc | ⟨why, hstate, -, -⟩
  · rw [hc.steps]
    exact hlt
  · rw [hstate]
    exact hlt.le

/-- Every step keeps the count of steps within the budget (R101). -/
theorem withinBudget_of_step (hs : s.WithinBudget) (h : step ⟨p, s⟩ = .next ⟨p, t⟩) : t.WithinBudget := by
  rcases step_cases p s with ⟨_, -, hstep⟩ | ⟨-, -, hstep⟩ | ⟨-, -, -, hstep⟩ | ⟨x, -, hbudget, -, hstep⟩ <;>
    rw [hstep] at h
  · cases h
  · cases h
    exact hs
  · cases h
    exact hs
  · exact withinBudget_of_outcome ((budgetSpent_false_iff s).mp hbudget) (outcome_of_next h).2

/-- A run that starts within its budget ends within it (R101). -/
theorem withinBudget_of_runFor {n : Nat} (hs : s.WithinBudget) (h : runFor n ⟨p, s⟩ = ⟨p, t⟩) :
    t.WithinBudget := by
  obtain ⟨u, hu, hkept⟩ := runFor_keeps (fun _ _ => withinBudget_of_step) n hs
  cases hu.symm.trans h
  exact hkept

/-- A run keeps its budget (R14). -/
theorem budget_of_runFor {n : Nat} (h : runFor n ⟨p, s⟩ = ⟨p, t⟩) : t.budget = s.budget := by
  obtain ⟨u, hu, -, hbudget, -⟩ := inputsFixedThroughRun n p s
  cases hu.symm.trans h
  exact hbudget

/-- A word with an opcode number from 21 on decodes to the reserved instruction of that number (R77). -/
theorem decode_of_reserved_number (p : Params) {x : Word} (h : 21 ≤ x.toNat / 2 ^ 27) :
    ∃ r f, decode p x = reservedInstr r f ∧ (p.number r.opcode).toNat = x.toNat / 2 ^ 27 := by
  rw [← toNat_opcodeBits] at h ⊢
  have hopcode := p.opcode_of_le h
  obtain ⟨f, hf⟩ := eq_reservedInstr ((decode_opcode p x).trans hopcode)
  exact ⟨_, f, hf, by rw [← hopcode, p.number_opcode]⟩

end Checks

/-- Settles O34: the check itself, no other source of `Cancelled`, and the invariant along the run. -/
theorem budgetCheckCancels : Obligations.BudgetCheckCancels := by
  intro p s hrun
  refine ⟨fun b hb hle => ?cancels, fun hb t ht => ?none, fun b hb hle n t ht => ?run⟩
  case cancels =>
    exact ⟨_, step_of_spent hrun ((budgetSpent_iff s).mpr ⟨b, hb, hle⟩), raise_stopped .cancelled s, rfl⟩
  case none => exact not_cancelled_of_step (not_spent_of_no_budget hb) ht
  case run =>
    have hwithin : s.WithinBudget := fun c hc => by
      cases hb.symm.trans hc
      exact hle
    exact withinBudget_of_runFor hwithin ht b ((budget_of_runFor ht).trans hb)

/-- Settles O35: the fetch finds no word, and the stop changes the status alone. -/
theorem overrunCheckStops : Obligations.OverrunCheckStops := by
  intro p s hrun hbudget hpc
  exact ⟨_, step_of_overrun hrun ((budgetSpent_false_iff s).mpr hbudget) ((fetch_none_iff s).mpr hpc),
    raise_stopped .programOverrun s, rfl⟩

/-- Settles O36: the fetched word is a reserved instruction, and not the close. -/
theorem illegalOpcodeCheckStops : Obligations.IllegalOpcodeCheckStops := by
  intro p s x hrun hbudget hfetch hnumber hnotclose
  obtain ⟨r, f, hdecode, hr⟩ := decode_of_reserved_number p hnumber
  have hclose : s.closeOpcode ≠ some r := fun h => hnotclose r h hr
  refine ⟨raise .illegalOpcode s, ?_, raise_stopped .illegalOpcode s, rfl⟩
  rw [step_of_executes ⟨hrun, hbudget, x, hfetch, hdecode⟩, exec_reservedInstr, reserved_of_not_close hclose]

end Sys2Proof.Machine
end

section
/-! PROOFS. The statements of the load and store family: what LD leaves, and what ST, S and R write. -/

namespace Sys2Proof.Machine

variable {w : Nat} {s t : Engine w}

/-! ### The completed load and the completed writes -/

/-- The negation of `negate_arg` is the boolean one, of a value as well as of an operand (R24, R121). -/
theorem negIf_eq_ite (flag : Bool) (v : Value w) :
    negIf flag v = if flag then (if v = 0 then 1 else 0) else v := by
  rw [negIf, neg_eq_ite]

/-- Completion leaves the port and the cells, so what was written stays written (R110). -/
theorem wroteOperand_advance {f : OFields} {v : Value w} (h : WroteOperand f v s t) :
    WroteOperand f v s (advance t) := h

/-- LD overwrites the accumulator without reading it (R120). -/
theorem load_setAcc (f : OFields) (a : Value w) (s : Engine w) :
    advance (setAcc (opnd f (setAcc a s)).1 (opnd f (setAcc a s)).2) =
      advance (setAcc (opnd f s).1 (opnd f s).2) := rfl

/-- A write that completes: the operand is written, and nothing else changes but `pc` and `steps`. -/
theorem write_completed (f : OFields) (v : Value w) (hmem : s.MemoryCanonical)
    (ht : t = advance (writeOperand f v s)) :
    t.acc = s.acc ∧ t.es = s.es ∧ CompletedAt (s.pc + 1) s t ∧ WroteOperand f v s t := by
  subst ht
  exact ⟨rfl, rfl, advance_completed rfl rfl rfl (sameInputs_refl s),
    wroteOperand_advance (writeOperand_spec f v s hmem)⟩

/-- A write on a condition that completes (S, R): where the accumulator is false nothing changes but `pc` and
`steps`. -/
theorem condWrite_completed (f : OFields) (v : Value w) (hmem : s.MemoryCanonical)
    (ht : t = advance (if truth s.acc then writeOperand f v s else s)) :
    t.acc = s.acc ∧ t.es = s.es ∧ CompletedAt (s.pc + 1) s t ∧
      (s.acc ≠ 0 → WroteOperand f v s t) ∧ (s.acc = 0 → NoAccess s t ∧ SameCells s t) := by
  by_cases hacc : s.acc = 0
  · rw [(truth_false_iff s.acc).mpr hacc] at ht
    subst ht
    exact ⟨rfl, rfl, advance_completed rfl rfl rfl (sameInputs_refl s), absurd hacc,
      fun _ => ⟨rfl, fun _ => rfl⟩⟩
  · rw [if_pos ((truth_iff s.acc).mpr hacc)] at ht
    obtain ⟨hsame, hes, hcompleted, hwrote⟩ := write_completed f v hmem ht
    exact ⟨hsame, hes, hcompleted, fun _ => hwrote, fun h => absurd h hacc⟩

/-! ### The statements -/

/-- Settles O14: the operand's read goes to the accumulator, whatever it held. -/
theorem loadTakesOperand : Obligations.LoadTakesOperand := by
  intro f p s
  refine ⟨encode_mask (.ld f), ⟨_, rfl, ?_⟩, fun a => ?_⟩
  · exact ⟨negIf_eq_fetched f s, rfl, advance_completed rfl rfl rfl (sameInputs_refl s), fun _ => rfl, rfl⟩
  · exact congrArg (fun e => Host.Outcome.next (State.mk p e)) (load_setAcc f a s)

/-- Settles O15: the completed write of the accumulator, or of its negation. -/
theorem storeWritesAccumulator : Obligations.StoreWritesAccumulator := by
  intro f p s hmem
  rw [← negIf_eq_ite]
  exact ⟨encode_mask (.st f), _, rfl, write_completed f _ hmem rfl⟩

/-- Settles O16: the write on a condition, of 1. -/
theorem setWritesOneWhenTrue : Obligations.SetWritesOneWhenTrue :=
  fun f _ _ hmem => ⟨encode_mask (.s f), _, rfl, condWrite_completed f 1 hmem rfl⟩

/-- Settles O17: the write on a condition, of 0. -/
theorem resetWritesZeroWhenTrue : Obligations.ResetWritesZeroWhenTrue :=
  fun f _ _ hmem => ⟨encode_mask (.r f), _, rfl, condWrite_completed f 0 hmem rfl⟩

end Sys2Proof.Machine
end

section
/-! PROOFS. The statements of the boolean family: AND, OR and XOR, applied or opened, and NOT. -/

namespace Sys2Proof.Machine

variable {p : Params} {s : Engine p.vw} {i : Instr} {op : TwoOp} {f : OFields}

/-! ### The completed two-operand instruction -/

/-- A two-operand instruction with room for its frame completes, if it opens a bracket or its operator has a
result: under the default laws the accumulator is left with what holds of that result (R109). -/
theorem exec_appliedOrOpened {result : Value p.vw → Prop} (hop : twoOpOf i = some (op, f))
    (hroom : f.push = true → HasRoom p s)
    (hresult : f.push = false → ∃ v, alu .default op s.acc (fetched f s) = some v ∧ result v) :
    ∃ t, exec i ⟨p, s⟩ = .next ⟨p, t⟩ ∧ AppliedOrOpened p.alu op (result t.acc) f s t := by
  rw [exec_of_twoOp hop p s hroom]
  rcases twoOperand_cases p.alu op f s with
    ⟨t, ht, ⟨hcompleted, hcells, hread, happlied, hopened⟩, -⟩ | ⟨hpush, hdiv, hzero, -⟩
  · refine ⟨t, by rw [ht], hcompleted, hcells, hread, fun hpush => ?_, hopened⟩
    obtain ⟨hes, halu, -⟩ := happlied hpush
    obtain ⟨v, hv, hholds⟩ := hresult hpush
    refine ⟨hes, halu, fun hlaws => ?_⟩
    rw [hlaws, hv] at halu
    cases halu
    exact hholds
  · obtain ⟨v, hv, -⟩ := hresult hpush
    cases ((alu_none_iff .default op s.acc (fetched f s)).mpr ⟨hdiv, hzero⟩).symm.trans hv

/-- A two-operand instruction whose operator gives a truth value under the default laws completes with 1 where
the condition holds, and 0 where it does not (R21). -/
theorem exec_appliedOrOpened_of_truth {b : Bool} {q : Prop} [Decidable q] (hop : twoOpOf i = some (op, f))
    (hroom : f.push = true → HasRoom p s) (hdiv : op ≠ .div)
    (hresult : aluResult .default op s.acc (fetched f s) = b2v b) (hq : b = true ↔ q) :
    ∃ t, exec i ⟨p, s⟩ = .next ⟨p, t⟩ ∧
      AppliedOrOpened p.alu op (t.acc = if q then 1 else 0) f s t :=
  exec_appliedOrOpened (result := (· = if q then 1 else 0)) hop hroom
    fun _ => ⟨_, alu_default_of_truth hdiv hresult hq, rfl⟩

/-! ### The statements -/

/-- Settles O18: the truth value is the conjunction of the two. -/
theorem andOfTruthValues : Obligations.AndOfTruthValues := by
  intro f p s hroom
  exact ⟨encode_mask (.and f), exec_appliedOrOpened_of_truth rfl hroom (by decide) rfl truth_and_iff⟩

/-- Settles O19: the truth value is the disjunction of the two, the operand read in every case. -/
theorem orOfTruthValues : Obligations.OrOfTruthValues := by
  intro f p s hroom
  exact ⟨encode_mask (.or f), exec_appliedOrOpened_of_truth rfl hroom (by decide) rfl truth_or_iff⟩

/-- Settles O20: the truth value is the exclusive disjunction of the two. -/
theorem xorOfTruthValues : Obligations.XorOfTruthValues := by
  intro f p s hroom
  exact ⟨encode_mask (.xor f), exec_appliedOrOpened_of_truth rfl hroom (by decide) rfl truth_xor_iff⟩

/-- Settles O21: the boolean negation goes to the accumulator, and nothing else changes but `pc` and `steps`. -/
theorem notNegatesAccumulator : Obligations.NotNegatesAccumulator := by
  intro f p s
  exact ⟨encode_mask (.not f), _, rfl, neg_eq_ite s.acc, rfl,
    advance_completed rfl rfl rfl (sameInputs_refl s), fun _ => rfl, rfl⟩

end Sys2Proof.Machine
end

section
/-! PROOFS. The statements of the arithmetic family: ADD, SUB, MUL and DIV, applied or opened, and the division
by zero. -/

namespace Sys2Proof.Machine

variable {p : Params} {s : Engine p.vw} {i : Instr} {op : TwoOp} {f : OFields}

/-! ### Wrapped results, and none -/

/-- A two-operand instruction whose operator gives a wrapped integer under the default laws, as it does but
for an unbracketed DIV by zero, completes with that integer modulo `2^VW` (R130). -/
theorem exec_appliedOrOpened_of_wrap {n : Int} (hop : twoOpOf i = some (op, f))
    (hroom : f.push = true → HasRoom p s)
    (hdiv : f.push = false → ¬ (op = .div ∧ fetched f s = 0))
    (hresult : aluResult .default op s.acc (fetched f s) = wrap n) :
    ∃ t, exec i ⟨p, s⟩ = .next ⟨p, t⟩ ∧ AppliedOrOpened p.alu op (WrapsTo t.acc n) f s t :=
  exec_appliedOrOpened (result := (WrapsTo · n)) hop hroom
    fun hpush => alu_default_of_wrap (hdiv hpush) hresult

/-- Without `push` a divisor of 0 stops the run after the operand's read, whatever the laws (R109, R134). -/
theorem twoOperand_of_divByZero {w : Nat} (laws : AluLaws) {s : Engine w} (hpush : f.push = false)
    (hzero : fetched f s = 0) : twoOperand laws .div f s = raise .divisionByZero (opnd f s).2 := by
  rcases twoOperand_cases laws .div f s with ⟨t, -, ⟨-, -, -, happlied, -⟩, -⟩ | ⟨-, -, -, hstop⟩
  · obtain ⟨-, halu, -⟩ := happlied hpush
    cases ((alu_none_iff laws .div s.acc (fetched f s)).mpr ⟨rfl, hzero⟩).symm.trans halu
  · exact hstop

/-- A stop after the operand's read is a stop of the state before it: the read changes the record of the port
alone (R166, R170). -/
theorem stoppedBy_raise_opnd {w : Nat} (why : Stop) (f : OFields) (s : Engine w) :
    StoppedBy why s (raise why (opnd f s).2) :=
  raise_stopped why (opnd f s).2

/-! ### The statements -/

/-- Settles O22: the result is the wrapped sum. -/
theorem addWraps : Obligations.AddWraps := by
  intro f p s hroom
  exact ⟨encode_mask (.add f), exec_appliedOrOpened_of_wrap rfl hroom (fun _ => nofun) rfl⟩

/-- Settles O23: the result is the wrapped difference, the accumulator on the left. -/
theorem subWraps : Obligations.SubWraps := by
  intro f p s hroom
  exact ⟨encode_mask (.sub f), exec_appliedOrOpened_of_wrap rfl hroom (fun _ => nofun) rfl⟩

/-- Settles O24: the result is the wrapped product. -/
theorem mulWraps : Obligations.MulWraps := by
  intro f p s hroom
  exact ⟨encode_mask (.mul f), exec_appliedOrOpened_of_wrap rfl hroom (fun _ => nofun) rfl⟩

/-- Settles O25: the result is the wrapped quotient, truncated toward zero; without a bracket a divisor of 0
stops the run. -/
theorem divDividesOrStops : Obligations.DivDividesOrStops := by
  intro f p s hroom
  refine ⟨encode_mask (.div f), fun hcompletes => ?completes, fun hpush hzero => ?stops⟩
  case completes =>
    have hdiv : f.push = false → ¬ (TwoOp.div = .div ∧ fetched f s = 0) := by
      rintro hpush ⟨-, hzero⟩
      rcases hcompletes with hopens | hdivisor
      · cases hpush.symm.trans hopens
      · exact hdivisor hzero
    exact exec_appliedOrOpened_of_wrap rfl hroom hdiv (aluResult_default_div s.acc (fetched f s))
  case stops =>
    rw [exec_of_twoOp rfl p s hroom, twoOperand_of_divByZero p.alu hpush hzero]
    exact ⟨_, rfl, stoppedBy_raise_opnd .divisionByZero f s, rfl⟩

end Sys2Proof.Machine
end

section
/-! PROOFS. The statement of the compare family: GT, GE, EQ, NE, LE and LT, applied or opened. -/

namespace Sys2Proof.Machine

variable {p : Params} {s : Engine p.vw} {i : Instr} {op : TwoOp} {f : OFields}

/-- A comparison, whose operator decides a condition under the default laws, completes with 1 where the
condition holds, and 0 where it does not (R140). -/
theorem exec_appliedOrOpened_of_decide {c q : Prop} [Decidable c] [Decidable q]
    (hop : twoOpOf i = some (op, f)) (hroom : f.push = true → HasRoom p s) (hdiv : op ≠ .div)
    (hresult : aluResult .default op s.acc (fetched f s) = b2v (decide c)) (hq : c ↔ q) :
    ∃ t, exec i ⟨p, s⟩ = .next ⟨p, t⟩ ∧
      AppliedOrOpened p.alu op (t.acc = if q then 1 else 0) f s t :=
  exec_appliedOrOpened_of_truth hop hroom hdiv hresult (decide_eq_true_iff.trans hq)

/-- Settles O26: each operator compares the signed readings, the accumulator on the left; EQ and NE may
compare the values themselves, as the signed reading is injective. -/
theorem comparisonsLeaveOneOrZero : Obligations.ComparisonsLeaveOneOrZero := by
  intro f p s hroom
  refine ⟨⟨encode_mask (.gt f), ?gt⟩, ⟨encode_mask (.ge f), ?ge⟩, ⟨encode_mask (.eq f), ?eq⟩,
    ⟨encode_mask (.ne f), ?ne⟩, ⟨encode_mask (.le f), ?le⟩, ⟨encode_mask (.lt f), ?lt⟩⟩
  case gt => exact exec_appliedOrOpened_of_decide rfl hroom (by decide) rfl Iff.rfl
  case ge => exact exec_appliedOrOpened_of_decide rfl hroom (by decide) rfl Iff.rfl
  case eq => exact exec_appliedOrOpened_of_decide rfl hroom (by decide) rfl BitVec.toInt_inj
  case ne => exact exec_appliedOrOpened_of_decide rfl hroom (by decide) rfl BitVec.toInt_ne
  case le => exact exec_appliedOrOpened_of_decide rfl hroom (by decide) rfl Iff.rfl
  case lt => exact exec_appliedOrOpened_of_decide rfl hroom (by decide) rfl Iff.rfl

end Sys2Proof.Machine
end

section
/-! PROOFS. The statements of the control family: JMP and CAL, HALT, and the reserved opcodes that stop the
run. -/

namespace Sys2Proof.Machine

/-! ### The completed transfer -/

/-- A transfer goes on where R150 says: at the target, or at the next instruction. -/
theorem transferPc_eq_ite {w : Nat} (f : JFields) (s : Engine w) :
    transferPc f s = if Transfers f s.acc then f.target.toNat else s.pc + 1 := by
  split_ifs with htransfers
  · exact transferPc_of_transfers htransfers
  · exact transferPc_of_not_transfers htransfers

/-- JMP and CAL complete where the transfer leads, and change nothing but `pc` and `steps` (R151, R152). -/
theorem exec_completed_of_transfer {p : Params} {i : Instr} {f : JFields} (hi : i = .jmp f ∨ i = .cal f)
    (s : Engine p.vw) :
    ∃ t, exec i ⟨p, s⟩ = .next ⟨p, t⟩ ∧
      CompletedAt (if Transfers f s.acc then f.target.toNat else s.pc + 1) s t ∧
      t.acc = s.acc ∧ t.es = s.es ∧ SameCells s t ∧ NoAccess s t :=
  ⟨_, exec_of_transfer hi s, ⟨transferPc_eq_ite f s, rfl, rfl, sameInputs_refl s⟩, rfl, rfl,
    fun _ => rfl, rfl⟩

/-! ### The reserved rows -/

/-- The base word of a reserved row, from the row's number, which is the same in every configuration
(R5, R154). -/
theorem baseWord_reserved (p : Params) (r : Reserved) :
    r.opcode.baseWord = BitVec.ofNat 32 (0xA8000000 + ((p.number r.opcode).toNat - 21) * 0x08000000) := by
  rw [p.number_reserved]
  cases r <;> rfl

/-! ### The statements -/

/-- Settles O27: JMP is a transfer. -/
theorem jumpTransfersOrAdvances : Obligations.JumpTransfersOrAdvances := by
  intro f p s
  exact ⟨encode_mask (.jmp f), exec_completed_of_transfer (Or.inl rfl) s⟩

/-- Settles O28: CAL is a transfer, and both transfers have one meaning. -/
theorem callIsAJump : Obligations.CallIsAJump := by
  intro f p s
  refine ⟨encode_mask (.cal f), exec_completed_of_transfer (Or.inr rfl) s, ?_⟩
  rw [exec_of_transfer (Or.inr rfl), exec_of_transfer (Or.inl rfl)]

/-- Settles O29: HALT is the stop `Halted`. -/
theorem haltStopsTheRun : Obligations.HaltStopsTheRun := by
  intro f p s
  exact ⟨encode_mask (.halt f), raise .halted s, rfl, raise_stopped .halted s, rfl⟩

/-- Settles O30: a reserved opcode that is not the close is the stop `IllegalOpcode`. -/
theorem reservedOpcodesStopTheRun : Obligations.ReservedOpcodesStopTheRun := by
  intro r f p s
  refine ⟨?baseWord, fun hclose => ?stops⟩
  case baseWord =>
    rw [encode_mask, reservedInstr_opcode, baseWord_reserved p]
  case stops =>
    rw [exec_reservedInstr, reserved_of_not_close hclose]
    exact ⟨_, rfl, raise_stopped .illegalOpcode s, rfl⟩

end Sys2Proof.Machine
end

section
/-! PROOFS. The statements of the exceptions family: the cause of each stop, the state it leaves, and that no
step follows it. -/

namespace Sys2Proof.Machine

/-! ### The steps that stop the run -/

section Stops

variable {p : Params} {s t u : Engine p.vw} {why : Stop} {i : Instr}

/-- The steps that stop the run: each with its cause (R160) and with the state it leaves, where only a dividing
DIV has used the port (R166, R170). -/
inductive StopStep (p : Params) (s : Engine p.vw) : Stop → Engine p.vw → Prop where
  | cancelled (hrun : s.status = .running) (hspent : Spent s) :
      StopStep p s .cancelled (raise .cancelled s)
  | overrun (hrun : s.status = .running) (hbudget : ¬ Spent s) (hpc : s.prog.length ≤ s.pc) :
      StopStep p s .programOverrun (raise .programOverrun s)
  | illegal {r : Reserved} {f : OFields} (hexec : Executes p s (reservedInstr r f))
      (hclose : s.closeOpcode ≠ some r) :
      StopStep p s .illegalOpcode (raise .illegalOpcode s)
  | halted {f : OFields} (hexec : Executes p s (.halt f)) :
      StopStep p s .halted (raise .halted s)
  | div {f : OFields} (hexec : Executes p s (.div f)) (hpush : f.push = false) (hzero : fetched f s = 0) :
      StopStep p s .divisionByZero (raise .divisionByZero (opnd f s).2)
  | close {r : Reserved} {f : OFields} {a : Value p.vw} {rest : List (Frame p.vw)}
      (hexec : Executes p s (reservedInstr r f)) (hclose : s.closeOpcode = some r)
      (hframe : s.es = ⟨.div, a⟩ :: rest) (hacc : s.acc = 0) :
      StopStep p s .divisionByZero (raise .divisionByZero s)

/-- A status other than `Running` names the stop that ended the run (R29). -/
theorem stopped_of_not_running {st : Status} (h : st ≠ .running) : ∃ why, st = .stopped why := by
  cases st with
  | running => exact absurd rfl h
  | stopped why => exact ⟨why, rfl⟩

/-- Each listed step is what the machine does. -/
theorem step_of_stopStep (h : StopStep p s why t) : step ⟨p, s⟩ = .next ⟨p, t⟩ := by
  cases h with
  | cancelled hrun hspent => exact step_of_spent hrun ((budgetSpent_iff s).mpr hspent)
  | overrun hrun hbudget hpc =>
    exact step_of_overrun hrun ((budgetSpent_false_iff s).mpr hbudget) ((fetch_none_iff s).mpr hpc)
  | illegal hexec hclose => rw [step_of_executes hexec, exec_reservedInstr, reserved_of_not_close hclose]
  | halted hexec => exact step_of_executes hexec
  | div hexec hpush hzero =>
    rw [step_of_executes hexec, exec_of_twoOp rfl p s (fun hopens => nomatch hpush.symm.trans hopens),
      twoOperand_of_divByZero p.alu hpush hzero]
  | close hexec hclose hframe hacc =>
    rw [step_of_executes hexec, exec_reservedInstr, reserved_of_close hclose,
      closeBracket_of_divByZero hframe rfl hacc]

/-- Each listed step leaves the status it is listed with. -/
theorem status_of_stopStep (h : StopStep p s why t) : t.status = .stopped why := by
  cases h <;> rfl

/-- DIV is the one instruction whose operator divides (R134). -/
theorem eq_div_of_twoOp {f : OFields} (h : twoOpOf i = some (.div, f)) : i = .div f := by
  cases i <;> simp only [twoOpOf, Option.some.injEq, Prod.mk.injEq, reduceCtorEq, false_and] at h
  obtain ⟨-, rfl⟩ := h
  rfl

/-- A write on a condition (S, R) leaves the status. -/
theorem condWrite_status {w : Nat} (c : Bool) (f : OFields) (v : Value w) (s : Engine w) :
    (if c then writeOperand f v s else s).status = s.status := by
  cases c <;> rfl

/-- A two-operand instruction that stops the run is a DIV by zero without a bracket (R109). -/
theorem stopStep_of_twoOp {op : TwoOp} {f : OFields} (hexec : Executes p s i) (hop : twoOpOf i = some (op, f))
    (ht : (twoOperand p.alu op f s).status = .stopped why) :
    StopStep p s why (twoOperand p.alu op f s) := by
  rcases twoOperand_cases p.alu op f s with ⟨u, hu, ⟨⟨-, -, hstatus, -⟩, -⟩, -⟩ | ⟨hpush, rfl, hzero, hstop⟩
  · rw [hu, hstatus, hexec.1] at ht
    cases ht
  · rw [hstop] at ht ⊢
    cases ht
    rw [eq_div_of_twoOp hop] at hexec
    exact .div hexec hpush hzero

/-- A reserved opcode that stops the run is illegal, or closes the bracket of a DIV by zero (R104, R114). -/
theorem stopStep_of_reserved {r : Reserved} {f : OFields} (hexec : Executes p s (reservedInstr r f))
    (ht : (reserved p.alu r s).status = .stopped why) : StopStep p s why (reserved p.alu r s) := by
  by_cases hclose : s.closeOpcode = some r
  · rw [reserved_of_close hclose] at ht ⊢
    rcases closeBracket_cases p.alu s with ⟨-, hc⟩ | ⟨_, _, _, -, -, hc⟩ | ⟨⟨_, a⟩, rest, hframe, rfl, hacc, hc⟩
    · rw [hc] at ht
      cases hexec.1.symm.trans ht
    · rw [hc] at ht
      cases hexec.1.symm.trans ht
    · rw [hc] at ht ⊢
      cases ht
      exact .close hexec hclose hframe hacc
  · rw [reserved_of_not_close hclose] at ht ⊢
    cases ht
    exact .illegal hexec hclose

/-- Of the instructions, HALT, DIV and the reserved opcodes alone stop the run, each for its cause (R160). -/
theorem stopStep_of_exec (hexec : Executes p s i) (h : exec i ⟨p, s⟩ = .next ⟨p, t⟩)
    (ht : t.status = .stopped why) : StopStep p s why t := by
  have hgoes : t.status ≠ s.status := by
    rw [ht, hexec.1]
    nofun
  rcases instr_kinds i with ⟨f, rfl⟩ | ⟨f, rfl⟩ | ⟨f, rfl⟩ | ⟨f, rfl⟩ | ⟨f, rfl⟩ | ⟨f, rfl⟩ | ⟨f, rfl⟩ |
    ⟨f, rfl⟩ | ⟨op, f, hop⟩ | ⟨r, f, rfl⟩
  · cases h; exact absurd rfl hgoes
  · cases h; exact absurd rfl hgoes
  · cases h; exact absurd (condWrite_status _ f 1 s) hgoes
  · cases h; exact absurd (condWrite_status _ f 0 s) hgoes
  · cases h; exact absurd rfl hgoes
  · cases h; exact absurd rfl hgoes
  · cases h; exact absurd rfl hgoes
  · cases h; cases ht; exact .halted hexec
  · rw [eq_twoOperand_of_next hop h] at ht ⊢
    exact stopStep_of_twoOp hexec hop ht
  · rw [exec_reservedInstr] at h
    cases h
    exact stopStep_of_reserved hexec ht

/-- Every step that stops the run is listed, the checks in the order of R168. -/
theorem stopStep_of_step (h : step ⟨p, s⟩ = .next ⟨p, t⟩) (ht : t.status = .stopped why) :
    StopStep p s why t := by
  rcases step_cases p s with ⟨_, -, hs⟩ | ⟨hrun, hspent, hs⟩ | ⟨hrun, hbudget, hfetch, hs⟩ |
    ⟨x, hrun, hbudget, hfetch, hs⟩ <;> rw [hs] at h
  · cases h
  · cases h; cases ht
    exact .cancelled hrun ((budgetSpent_iff s).mp hspent)
  · cases h; cases ht
    exact .overrun hrun ((budgetSpent_false_iff s).mp hbudget) ((fetch_none_iff s).mp hfetch)
  · exact stopStep_of_exec ⟨hrun, (budgetSpent_false_iff s).mp hbudget, x, hfetch, rfl⟩ h ht

/-- Where a listed step starts no other one does: the machine is deterministic. -/
theorem status_of_step_of_stopStep (h : step ⟨p, s⟩ = .next ⟨p, t⟩) (hu : StopStep p s why u) :
    t.status = .stopped why := by
  cases (step_of_stopStep hu).symm.trans h
  exact status_of_stopStep hu

end Stops

/-! ### The run after a stop -/

/-- A stopped state has no step (R171). -/
theorem step_fault_of_not_running {s : State} (h : s.engine.status ≠ .running) :
    ∃ why, step s = .fault why := by
  obtain ⟨why, hwhy⟩ := stopped_of_not_running h
  exact ⟨_, step_of_stopped hwhy⟩

theorem runFor_of_fault {s : State} {why : Fault} (n : Nat) (h : step s = .fault why) : runFor n s = s := by
  cases n with
  | zero => rfl
  | succ n => exact runFor_succ_of_fault n h

/-- A run in two parts (R111). -/
theorem runFor_add (n m : Nat) (s : State) : runFor (n + m) s = runFor m (runFor n s) := by
  induction n generalizing s with
  | zero => rw [Nat.zero_add, runFor]
  | succ n ih =>
    rcases step_next_or_fault s.params s.engine with ⟨t, ht⟩ | ⟨why, hwhy⟩
    · rw [Nat.succ_add, runFor_succ_of_next _ ht, runFor_succ_of_next _ ht, ih]
    · rw [runFor_of_fault _ hwhy, runFor_of_fault _ hwhy, runFor_of_fault _ hwhy]

/-! ### The statements -/

/-- Settles O37: the stops a step can end in and their causes are those listed, and the step is determined. -/
theorem stopCausesExactly : Obligations.StopCausesExactly := by
  intro p s t hrun h
  refine ⟨⟨fun ht => ?cancelled, fun hspent => ?spent⟩, ⟨fun ht => ?overrun, fun ⟨hbudget, hpc⟩ => ?beyond⟩,
    ⟨fun ht => ?illegal, fun ⟨_, _, hexec, hclose⟩ => ?reserved⟩, ⟨fun ht => ?halted, fun ⟨_, hexec⟩ => ?halt⟩,
    ⟨fun ht => ?divByZero, fun hcause => ?zero⟩⟩
  case cancelled => cases stopStep_of_step h ht with | cancelled _ hspent => exact hspent
  case spent => exact status_of_step_of_stopStep h (.cancelled hrun hspent)
  case overrun => cases stopStep_of_step h ht with | overrun _ hbudget hpc => exact ⟨hbudget, hpc⟩
  case beyond => exact status_of_step_of_stopStep h (.overrun hrun hbudget hpc)
  case illegal => cases stopStep_of_step h ht with | illegal hexec hclose => exact ⟨_, _, hexec, hclose⟩
  case reserved => exact status_of_step_of_stopStep h (.illegal hexec hclose)
  case halted => cases stopStep_of_step h ht with | halted hexec => exact ⟨_, hexec⟩
  case halt => exact status_of_step_of_stopStep h (.halted hexec)
  case divByZero =>
    cases stopStep_of_step h ht with
    | div hexec hpush hzero => exact Or.inl ⟨_, hexec, hpush, hzero⟩
    | close hexec hclose hframe hacc => exact Or.inr ⟨_, _, _, _, hexec, hclose, hframe, hacc⟩
  case zero =>
    rcases hcause with ⟨_, hexec, hpush, hzero⟩ | ⟨_, _, _, _, hexec, hclose, hframe, hacc⟩
    · exact status_of_step_of_stopStep h (.div hexec hpush hzero)
    · exact status_of_step_of_stopStep h (.close hexec hclose hframe hacc)

/-- Settles O38: a stop leaves the state with its status replaced, and only a dividing DIV has used the port. -/
theorem stopsChangeOnlyTheStatus : Obligations.StopsChangeOnlyTheStatus := by
  intro p s t h ht
  obtain ⟨why, hwhy⟩ := stopped_of_not_running ht
  cases stopStep_of_step h hwhy with
  | div hexec hpush hzero => exact ⟨rfl, Or.inr ⟨_, hexec, hpush, hzero, rfl, rfl⟩⟩
  | _ => exact ⟨rfl, Or.inl rfl⟩

/-- Settles O39: a stopped state has no step, so the rest of a run that has stopped is no step. -/
theorem stopIsTerminal : Obligations.StopIsTerminal := by
  refine ⟨fun s t hstopped ht => ?noStep, fun s n m hstopped => ?frozen⟩
  case noStep =>
    obtain ⟨why, hwhy⟩ := step_fault_of_not_running hstopped
    cases hwhy.symm.trans ht
  case frozen =>
    obtain ⟨why, hwhy⟩ := step_fault_of_not_running hstopped
    rw [runFor_add, runFor_of_fault m hwhy]

end Sys2Proof.Machine
end

section
/-! PROOFS. The statement of the reset family: what a launch leaves in the engine. -/

namespace Sys2Proof.Machine

/-- Settles O43: the engine of a launch has the values of the reset table, and the inputs as supplied. -/
theorem launchResetsTheEngine : Obligations.LaunchResetsTheEngine := by
  intro l
  exact ⟨(State.launch l).engine, rfl, rfl, rfl, rfl, rfl, rfl, rfl, rfl, rfl, rfl, rfl⟩

end Sys2Proof.Machine
end

section
/-! PROOFS. The statements left of the codec: encoding after decoding, instructions and words one to one, the
numbering of a configuration, and the words of the spec's vectors. -/

namespace Sys2Proof

/-! ### Encoding after decoding -/

/-- The opcode bits and the format-O fields of a word are all of its bits, so they make the word (R74). -/
theorem encodeFields_oFields (w : Word) : encodeFields (.o (opcodeBits w) (oFields w)) = w := by
  apply BitVec.eq_of_getLsbD_eq
  intro i hi
  rw [getLsbD_encode_o _ _ hi]
  simp only [oFields, opcodeBits, kindBits, byteBits, bitBits, Word.bit, getLsbD_slice]
  interval_cases i <;> simp

/-- The opcode bits and the format-J fields of a word are all of its bits, so they make the word (R74). -/
theorem encodeFields_jFields (w : Word) : encodeFields (.j (opcodeBits w) (jFields w)) = w := by
  apply BitVec.eq_of_getLsbD_eq
  intro i hi
  rw [getLsbD_encode_j _ _ hi]
  simp only [jFields, opcodeBits, jumpTargetBits, Word.bit, getLsbD_slice]
  interval_cases i <;> simp

/-! ### Instructions and words -/

/-- The row of an instruction, at the fields of its own word, makes the instruction. -/
theorem instrOf_encode (p : Params) (i : Instr) : instrOf i.opcode (encode p i) = i := by
  cases i <;> simp only [Instr.opcode, instrOf, encode, Instr.fields, oFields_encode_o, jFields_encode_j]

theorem decode_encode (p : Params) (i : Instr) : decode p (encode p i) = i := by
  rw [decode, opcodeBits_encode, p.opcode_number, instrOf_encode]

/-- A reserved opcode has the number 21 or more, in every configuration the same (R5). -/
theorem Params.le_number_reserved (p : Params) (r : Reserved) : 21 ≤ (p.number r.opcode).toNat := by
  rw [p.number_reserved]
  exact r.le_number

theorem Params.number_le_of_defined (p : Params) {o : Opcode} (h : o ∈ Opcode.defined) :
    (p.number o).toNat ≤ 20 := by
  obtain ⟨hplace, hlt⟩ := p.toNat_number h
  omega

/-! ### The statements -/

/-- Settles O2: the record has the format of its opcode number, and that format's fields are the rest of the
word. -/
theorem codecEncodeAfterDecode : Obligations.CodecEncodeAfterDecode := by
  intro p w
  cases hjump : isJump p (opcodeBits w) with
  | true =>
    rw [decodeFields_of_isJump hjump]
    exact ⟨hjump, encodeFields_jFields w⟩
  | false =>
    rw [decodeFields_of_not_isJump hjump]
    exact ⟨by rw [Fields.wf, hjump, Bool.not_false], encodeFields_oFields w⟩

/-- Settles O3: an instruction's word selects its row and carries its fields; the instruction of a word has the
word's record, whose encoding is the word. -/
theorem instructionWordBijection : Obligations.InstructionWordBijection := by
  intro p
  refine ⟨decode_encode p, fun w => ?_⟩
  obtain ⟨-, hencode⟩ := codecEncodeAfterDecode p w
  rw [encode, fields_decode, hencode]

/-- Settles O56: the numbering is a bijection, with the defined opcodes below 21 and the reserved ones at their
own numbers. -/
theorem numberingSelectsTheInstruction : Obligations.NumberingSelectsTheInstruction := by
  intro p
  refine ⟨p.opcode_number, p.number_opcode, decode_opcode p, fun o ho => p.number_le_of_defined ho,
    fun r => ⟨?_, p.le_number_reserved r⟩⟩
  rw [p.number_reserved, Params.default.number_reserved]

/-- Settles O9: the eight words, decoded. -/
theorem specVectorWordsDecode : Obligations.SpecVectorWordsDecode := by
  refine ⟨?_, ?_, ?_, ?_, ?_, ?_, ?_, ?_⟩ <;> decide

/-- Settles O57: the values of the table, and the two lists with their numbers. -/
theorem defaultConfiguration : Obligations.DefaultConfiguration := by
  exact ⟨rfl, by decide, by decide, rfl, rfl, by decide, by decide, by decide, by decide, rfl, rfl⟩

end Sys2Proof
end

section
/-! PROOFS. The statements left of the values: truth and boolean negation, the quotient, and the comparisons. -/

namespace Sys2Proof.Machine

variable {w : Nat}

/-! ### Truth values as values -/

/-- With a bit at least, the value of a boolean has its truth value (R21). -/
theorem truth_b2v (hw : 0 < w) (b : Bool) : truth (b2v b : Value w) = b := by
  rw [Bool.eq_iff_iff, truth_iff]
  exact b2v_ne_zero_iff hw b

/-- Negation of a boolean's value is the value of its negation (R24). -/
theorem neg_b2v (hw : 0 < w) (b : Bool) : neg (b2v b : Value w) = b2v (!b) := by
  rw [neg, truth_b2v hw]

theorem neg_neg_eq (hw : 0 < w) (v : Value w) : neg (neg v) = b2v (truth v) := by
  have hneg : neg v = b2v (!truth v) := rfl
  rw [hneg, neg_b2v hw, Bool.not_not]

/-- The values that are their own truth value are 0 and 1 (R23). -/
theorem b2v_truth_eq_iff (hw : 0 < w) (v : Value w) : b2v (truth v) = v ↔ v = 0 ∨ v = 1 := by
  constructor
  · intro h
    cases ht : truth v with
    | false => exact Or.inl ((truth_false_iff v).mp ht)
    | true =>
      rw [ht] at h
      exact Or.inr h.symm
  · rintro (rfl | rfl)
    · exact congrArg b2v (truth_b2v hw false)
    · exact congrArg b2v (truth_b2v hw true)

/-! ### The quotient -/

/-- The default quotient is the library's signed division (R130). -/
theorem wrap_tdiv (a x : Value w) : wrap (Int.tdiv a.toInt x.toInt) = a.sdiv x :=
  BitVec.eq_of_toInt_eq (by rw [BitVec.toInt_sdiv]; exact sval_wrap _)

theorem alu_default_div (a : Value w) {x : Value w} (hx : x ≠ 0) :
    alu .default .div a x = some (a.sdiv x) := by
  rw [alu_of_result fun h => hx h.2, aluResult_default_div, wrap_tdiv]

theorem pos_of_ne_zero {x : Value w} (hx : x ≠ 0) : 0 < w := by
  rcases Nat.eq_zero_or_pos w with rfl | hw
  · exact absurd BitVec.of_length_zero hx
  · exact hw

/-- The signed readings of the one quotient that does not fit (D10). -/
theorem eq_intMin_iff (hw : 0 < w) (a : Value w) : a = BitVec.intMin w ↔ a.toInt = -2 ^ (w - 1) := by
  rw [← BitVec.toInt_inj, BitVec.toInt_intMin_of_pos hw]

theorem eq_neg_one_iff (hw : 0 < w) (x : Value w) : x = -1#w ↔ x.toInt = -1 := by
  rw [← BitVec.toInt_inj, BitVec.neg_one_eq_allOnes, BitVec.toInt_allOnes, if_pos hw]

/-! ### The comparisons -/

/-- A comparison under the default laws is of the signed readings (R140). -/
theorem alu_default_compare (a x : Value w) :
    alu .default .gt a x = some (b2v (decide (sval a > sval x))) ∧
    alu .default .ge a x = some (b2v (decide (sval a ≥ sval x))) ∧
    alu .default .eq a x = some (b2v (decide (sval a = sval x))) ∧
    alu .default .ne a x = some (b2v (decide (sval a ≠ sval x))) ∧
    alu .default .le a x = some (b2v (decide (sval a ≤ sval x))) ∧
    alu .default .lt a x = some (b2v (decide (sval a < sval x))) :=
  ⟨rfl, rfl, rfl, rfl, rfl, rfl⟩

/-- From two bits on a boolean's value reads as 1 or 0. -/
theorem sval_b2v (hw : 2 ≤ w) (b : Bool) : sval (b2v b : Value w) = b.toInt := by
  cases b with
  | false => exact BitVec.toInt_zero
  | true => exact BitVec.toInt_one hw

/-! ### The statements -/

/-- Settles O58: each identity for a boolean's value, the last by the two before. -/
theorem truthIdentities : Obligations.TruthIdentities := by
  intro w hw
  refine ⟨truth_b2v hw, b2v_truth_eq_iff hw, neg_neg_eq hw, fun v => ?_⟩
  rw [neg_neg_eq hw, b2v_truth_eq_iff hw]

/-- Settles O12: the quotient is the library's signed division, exact but for the most negative value by -1. -/
theorem divisionTruncatesTowardZero : Obligations.DivisionTruncatesTowardZero := by
  refine ⟨fun w a x hx => ⟨a.sdiv x, alu_default_div a hx, ?_⟩, fun laws _ => alu_none_iff laws⟩
  have hw := pos_of_ne_zero hx
  rw [← eq_intMin_iff hw, ← eq_neg_one_iff hw]
  refine ⟨fun hfits => BitVec.toInt_sdiv_of_ne_or_ne a x (not_and_or.mp hfits), ?_⟩
  rintro ⟨rfl, rfl⟩
  exact BitVec.intMin_sdiv_neg_one

/-- Settles O13: the signed readings are less, equal or greater. -/
theorem comparisonTrichotomy : Obligations.ComparisonTrichotomy := by
  intro w a x hw
  obtain ⟨hgt, hge, heq, hne, hle, hlt⟩ := alu_default_compare a x
  refine ⟨_, _, _, hlt, heq, hgt, ?exactlyOne, ?ge, ?le, ?ne⟩
  case exactlyOne =>
    rcases lt_trichotomy (sval a) (sval x) with h | h | h
    · simp [b2v, h, h.ne, h.not_gt]
    · simp [b2v, h]
    · simp [b2v, h, h.ne', h.not_gt]
  case ge => rw [hge, neg_b2v hw, ← decide_not, decide_eq_decide.mpr not_lt.symm]
  case le => rw [hle, neg_b2v hw, ← decide_not, decide_eq_decide.mpr not_lt.symm]
  case ne => rw [hne, neg_b2v hw, ← decide_not]

/-- Settles O60: from two bits on the readings compared are 1 and 0; of one bit, -1 and 0. -/
theorem booleansCompareAsOneAndZero : Obligations.BooleansCompareAsOneAndZero := by
  refine ⟨fun w b c hw => ?_, by decide, by decide⟩
  obtain ⟨hgt, hge, heq, hne, hle, hlt⟩ := alu_default_compare (b2v b : Value w) (b2v c)
  rw [hgt, hge, heq, hne, hle, hlt, sval_b2v hw, sval_b2v hw]
  cases b <;> cases c <;> exact ⟨rfl, rfl, rfl, rfl, rfl, rfl⟩

end Sys2Proof.Machine
end

section
/-! PROOFS. The invariants of a step: the canonical form of the memory, the discrete cells, the bounds of `pc`,
of the completed steps and of the evaluation stack; and that a running engine has a step. -/

namespace Sys2Proof.Machine

variable {p : Params} {s t : Engine p.vw} {i : Instr}

/-! ### What a step that happens has done -/

/-- A step that happens has stopped the run, at most the status and the record of the port changed, or has
completed an instruction of the program (R100). -/
theorem stopped_or_completes_of_step (h : step ⟨p, s⟩ = .next ⟨p, t⟩) :
    (∃ why, t = { raise why s with ports := t.ports }) ∨ (s.pc < s.prog.length ∧ Completes s t) := by
  rcases step_cases p s with ⟨_, -, hs⟩ | ⟨-, -, hs⟩ | ⟨-, -, -, hs⟩ | ⟨x, -, -, hfetch, hs⟩ <;> rw [hs] at h
  · cases h
  · cases h
    exact Or.inl ⟨_, rfl⟩
  · cases h
    exact Or.inl ⟨_, rfl⟩
  · rcases (outcome_of_next h).2 with hc | ⟨why, hstate, -, -⟩
    · exact Or.inr ⟨(List.getElem?_eq_some_iff.mp hfetch).1, hc⟩
    · exact Or.inl ⟨why, hstate⟩

/-- A step leaves the listed cells, or they are those of a write to the operand-memory port. -/
theorem mem_of_step (h : step ⟨p, s⟩ = .next ⟨p, t⟩) :
    t.mem = s.mem ∨ ∃ k v, t.mem = (memWrite k v s).mem := by
  rcases stopped_or_completes_of_step h with ⟨why, hstate⟩ | ⟨-, hc⟩
  · rw [hstate]
    exact Or.inl rfl
  · exact hc.mem

/-- A write keeps every discrete cell at 0 or 1: the reference memory keeps one boolean of the value (R52). -/
theorem memWrite_keeps_discrete {w : Nat} {s : Engine w} (k : Key) (v : Value w) (hwf : s.MemoryCanonical)
    (hs : s.DiscreteCellsBoolean) : (memWrite k v s).DiscreteCellsBoolean := by
  intro l hl
  by_cases hsame : l = k ∧ s.storage = .reference
  · obtain ⟨rfl, href⟩ := hsame
    rw [memWrite_cell_same v s hwf href]
    exact kept_discrete l v hl
  · have hcell : (memWrite k v s).cell l = s.cell l := by
      rcases not_and_or.mp hsame with hother | hhost
      · exact memWrite_cell_other v s hother
      · exact cell_of_mem_eq (memWrite_mem_host s k v hhost) l
    rw [hcell]
    exact hs l hl

/-! ### The evaluation stack -/

/-- Without a close opcode an instruction leaves the stack or opens a frame on it (R28). -/
theorem es_grows_of_completes {w : Nat} {s t : Engine w} (hclose : s.closeOpcode = none) (h : Completes s t) :
    ∃ frames, t.es = frames ++ s.es := by
  rcases h.es with hsame | ⟨fr, hopened⟩ | ⟨hsome, -⟩
  · exact ⟨[], hsame⟩
  · exact ⟨[fr], hopened⟩
  · exact absurd hclose hsome

theorem es_grows_of_exec (hclose : s.closeOpcode = none) (h : exec i ⟨p, s⟩ = .next ⟨p, t⟩) :
    ∃ frames, t.es = frames ++ s.es := by
  rcases (outcome_of_next h).2 with hc | ⟨why, hstate, -, -⟩
  · exact es_grows_of_completes hclose hc
  · rw [hstate]
    exact ⟨[], rfl⟩

theorem es_grows_of_step (hclose : s.closeOpcode = none) (h : step ⟨p, s⟩ = .next ⟨p, t⟩) :
    ∃ frames, t.es = frames ++ s.es := by
  rcases stopped_or_completes_of_step h with ⟨why, hstate⟩ | ⟨-, hc⟩
  · rw [hstate]
    exact ⟨[], rfl⟩
  · exact es_grows_of_completes hclose hc

/-- No close opcode is configured, and the stack is some frames on top of that of `s`. -/
def GrownFrom {w : Nat} (s t : Engine w) : Prop :=
  t.closeOpcode = none ∧ ∃ frames, t.es = frames ++ s.es

theorem grownFrom_refl {w : Nat} {s : Engine w} (hclose : s.closeOpcode = none) : GrownFrom s s :=
  ⟨hclose, [], rfl⟩

/-- A step keeps the stack some frames on top of an earlier one, and `CLOSE_OPCODE` as it was (R14). -/
theorem grownFrom_of_step {u : Engine p.vw} (ht : GrownFrom s t) (h : step ⟨p, t⟩ = .next ⟨p, u⟩) :
    GrownFrom s u := by
  obtain ⟨hclose, frames, hframes⟩ := ht
  obtain ⟨-, -, hkept, -⟩ := sameInputs_of_step h
  obtain ⟨more, hmore⟩ := es_grows_of_step hclose h
  exact ⟨hkept.trans hclose, more ++ frames, by rw [hmore, hframes, List.append_assoc]⟩

/-- The close takes a frame off the stack or leaves it (R114). -/
theorem closeBracket_es_length_le {w : Nat} (laws : AluLaws) (s : Engine w) :
    (closeBracket laws s).es.length ≤ s.es.length := by
  rcases closeBracket_cases laws s with ⟨-, hc⟩ | ⟨fr, rest, r, he, -, hc⟩ | ⟨_, _, -, -, -, hc⟩
  · rw [hc, advance_es]
  · rw [hc, advance_es, setAcc_es, setStack_es, he]
    exact Nat.le_succ rest.length
  · rw [hc, raise_es]

/-- An instruction that opens no bracket leaves no more frames than it found (R28). -/
theorem es_length_le_of_exec (hopen : ∀ op f, twoOpOf i = some (op, f) → f.push = false)
    (h : exec i ⟨p, s⟩ = .next ⟨p, t⟩) : t.es.length ≤ s.es.length := by
  by_cases hclose : ∃ r f, i = reservedInstr r f ∧ s.closeOpcode = some r
  · obtain ⟨r, f, rfl, hr⟩ := hclose
    rw [exec_reservedInstr, reserved_of_close hr] at h
    cases h
    exact closeBracket_es_length_le p.alu s
  · rw [es_of_exec_of_untouched hopen (fun r f hi hr => hclose ⟨r, f, hi, hr⟩) h]

/-- An instruction keeps the stack within its depth: a bracket is opened only where there is room (U13). -/
theorem withinDepth_of_exec (hs : s.WithinDepth p) (h : exec i ⟨p, s⟩ = .next ⟨p, t⟩) : t.WithinDepth p := by
  intro d hd
  by_cases hopen : ∃ op f, twoOpOf i = some (op, f) ∧ f.push = true
  · obtain ⟨op, f, hop, hpush⟩ := hopen
    rw [es_of_exec_of_push hop hpush h]
    exact (outcome_of_next h).1 op f hop hpush d hd
  · have hnot : ∀ op f, twoOpOf i = some (op, f) → f.push = false := fun op f hop =>
      Bool.eq_false_iff.mpr fun hpush => hopen ⟨op, f, hop, hpush⟩
    exact (es_length_le_of_exec hnot h).trans (hs d hd)

theorem withinDepth_of_step (hs : s.WithinDepth p) (h : step ⟨p, s⟩ = .next ⟨p, t⟩) : t.WithinDepth p := by
  rcases step_cases p s with ⟨_, -, hstep⟩ | ⟨-, -, hstep⟩ | ⟨-, -, -, hstep⟩ | ⟨x, -, -, -, hstep⟩ <;>
    rw [hstep] at h
  · cases h
  · cases h
    exact hs
  · cases h
    exact hs
  · exact withinDepth_of_exec hs h

/-! ### A running engine has a step -/

/-- A running engine has a step, if the instruction it is about to execute opens no bracket on a full stack. -/
theorem step_next_of_running (hrun : s.status = .running) (hfits : ∀ i, Executes p s i → Fits p i s) :
    ∃ t, step ⟨p, s⟩ = .next ⟨p, t⟩ := by
  rcases step_cases p s with ⟨why, hstopped, -⟩ | ⟨-, -, hs⟩ | ⟨-, -, -, hs⟩ | ⟨x, -, hbudget, hfetch, hs⟩
  · cases hrun.symm.trans hstopped
  · exact ⟨_, hs⟩
  · exact ⟨_, hs⟩
  · have hexec : Executes p s (decode p x) := ⟨hrun, (budgetSpent_false_iff s).mp hbudget, x, hfetch, rfl⟩
    obtain ⟨t, ht, -⟩ := exec_answers (decode p x) p s (hfits _ hexec)
    exact ⟨t, hs.trans ht⟩

/-- An unbounded stack has room for any frame. -/
theorem fits_of_unbounded (h : p.esDepth = none) (i : Instr) (s : Engine p.vw) : Fits p i s := by
  rintro op f - - d hd
  cases h.symm.trans hd

/-! ### The statements -/

/-- Settles O48: an instruction, and every step of a run, only adds frames. -/
theorem stackOnlyGrowsWithoutClose : Obligations.StackOnlyGrowsWithoutClose := by
  refine ⟨fun i p s t hclose h => es_grows_of_exec hclose h, fun n p s t hclose hrun => ?_⟩
  obtain ⟨u, hu, -, hgrown⟩ := runFor_keeps (fun _ _ => grownFrom_of_step) n (grownFrom_refl hclose)
  cases hu.symm.trans hrun
  exact hgrown

/-- Settles O51: the cells after a step are those before it, or those after a write. -/
theorem stepKeepsMemoryCanonical : Obligations.StepKeepsMemoryCanonical := by
  intro p s t hs h
  rcases mem_of_step h with hmem | ⟨k, v, hmem⟩
  · rw [Engine.MemoryCanonical, hmem]
    exact hs
  · rw [Engine.MemoryCanonical, hmem]
    exact memWrite_keeps_wf k v s hs

/-- Settles O52: the cells after a step are those before it, or those after a write. -/
theorem stepKeepsDiscreteCellsBoolean : Obligations.StepKeepsDiscreteCellsBoolean := by
  intro p s t hwf hs h l hl
  rcases mem_of_step h with hmem | ⟨k, v, hmem⟩
  · rw [cell_of_mem_eq hmem]
    exact hs l hl
  · rw [cell_of_mem_eq hmem]
    exact memWrite_keeps_discrete k v hwf hs l hl

/-- Settles O53: the next instruction of one in the program is at most its end, and a target has 25 bits. -/
theorem stepKeepsPcBounded : Obligations.StepKeepsPcBounded := by
  intro p s t hs h
  rcases stopped_or_completes_of_step h with ⟨why, hstate⟩ | ⟨hpc, hc⟩
  · rw [hstate]
    exact hs
  · obtain ⟨hprog, -⟩ := hc.inputs
    rw [Engine.PcBounded, hprog]
    rcases hc.pc with hnext | ⟨target, htarget⟩
    · rw [hnext]
      exact le_max_of_le_left hpc
    · rw [htarget]
      exact le_max_of_le_right (Nat.le_pred_of_lt target.isLt)

/-- Settles O54: an instruction starts before the budget is spent, and counts one step at most. -/
theorem stepKeepsWithinBudget : Obligations.StepKeepsWithinBudget :=
  fun _ _ _ => withinBudget_of_step

/-- Settles O40: a step is one of the two checks or an instruction, and an instruction is stuck at a full stack
alone. -/
theorem runningEngineAlwaysSteps : Obligations.RunningEngineAlwaysSteps :=
  ⟨fun _ s hrun hunbounded => step_next_of_running hrun fun i _ => fits_of_unbounded hunbounded i s,
    fun _ _ => step_next_of_running, fun _ _ _ p s hop => exec_of_full hop p s, fun _ _ _ => withinDepth_of_step⟩

end Sys2Proof.Machine
end

section
/-! PROOFS. The statements left of the instructions and of the start of a run: what an instruction writes, what it
depends on, a transfer outside the program, the decoded instruction, the launch and the memory after a run. -/

namespace Sys2Proof.Machine

variable {w : Nat} {p : Params} {s t : Engine p.vw} {i : Instr}

/-! ### What an instruction writes -/

theorem twoOperand_mem (laws : AluLaws) (op : TwoOp) (f : OFields) (s : Engine w) :
    (twoOperand laws op f s).mem = s.mem := by
  rcases twoOperand_cases laws op f s with ⟨t, ht, -, hmem⟩ | ⟨-, -, -, ht⟩
  · rw [ht, hmem]
  · rw [ht, raise_mem, opnd_mem]

theorem closeBracket_mem (laws : AluLaws) (s : Engine w) : (closeBracket laws s).mem = s.mem := by
  rcases closeBracket_cases laws s with ⟨-, hc⟩ | ⟨_, _, _, -, -, hc⟩ | ⟨_, _, -, -, -, hc⟩ <;> rw [hc] <;> rfl

theorem reserved_mem (laws : AluLaws) (r : Reserved) (s : Engine w) : (reserved laws r s).mem = s.mem := by
  by_cases hclose : s.closeOpcode = some r
  · rw [reserved_of_close hclose, closeBracket_mem]
  · rw [reserved_of_not_close hclose, raise_mem]

/-- An instruction other than ST, S and R leaves the listed cells (R45). -/
theorem mem_of_exec (hi : ∀ f, i ≠ .st f ∧ i ≠ .s f ∧ i ≠ .r f) (h : exec i ⟨p, s⟩ = .next ⟨p, t⟩) :
    t.mem = s.mem := by
  rcases instr_kinds i with ⟨f, rfl⟩ | ⟨f, rfl⟩ | ⟨f, rfl⟩ | ⟨f, rfl⟩ | ⟨f, rfl⟩ | ⟨f, rfl⟩ | ⟨f, rfl⟩ |
    ⟨f, rfl⟩ | ⟨op, f, hop⟩ | ⟨r, f, rfl⟩
  · cases h; rfl
  · exact absurd rfl (hi f).1
  · exact absurd rfl (hi f).2.1
  · exact absurd rfl (hi f).2.2
  · cases h; rfl
  · cases h; rfl
  · cases h; rfl
  · cases h; rfl
  · rw [eq_twoOperand_of_next hop h]
    exact twoOperand_mem p.alu op f s
  · rw [exec_reservedInstr] at h
    cases h
    exact reserved_mem p.alu r s

/-- A write on a condition (S, R) leaves the accumulator. -/
theorem condWrite_acc (c : Bool) (f : OFields) (v : Value w) (s : Engine w) :
    (if c then writeOperand f v s else s).acc = s.acc := by
  cases c <;> rfl

/-- An instruction other than LD, NOT, the two-operand ones and the close leaves the accumulator. -/
theorem acc_of_exec (hi : ∀ f, i ≠ .ld f ∧ i ≠ .not f) (hop : twoOpOf i = none)
    (hclose : ∀ r f, i = reservedInstr r f → s.closeOpcode ≠ some r) (h : exec i ⟨p, s⟩ = .next ⟨p, t⟩) :
    t.acc = s.acc := by
  rcases instr_kinds i with ⟨f, rfl⟩ | ⟨f, rfl⟩ | ⟨f, rfl⟩ | ⟨f, rfl⟩ | ⟨f, rfl⟩ | ⟨f, rfl⟩ | ⟨f, rfl⟩ |
    ⟨f, rfl⟩ | ⟨op, f, hsome⟩ | ⟨r, f, rfl⟩
  · exact absurd rfl (hi f).1
  · cases h; rfl
  · cases h; exact condWrite_acc _ f 1 s
  · cases h; exact condWrite_acc _ f 0 s
  · exact absurd rfl (hi f).2
  · cases h; rfl
  · cases h; rfl
  · cases h; rfl
  · cases hop.symm.trans hsome
  · rw [exec_reservedInstr, reserved_of_not_close (hclose r f rfl)] at h
    cases h
    rfl

/-! ### What an instruction depends on -/

/-- The engine over other listed cells. -/
def withMem (m : Memory w) (s : Engine w) : Engine w := { s with mem := m }

/-- The storage answers alike over cells that agree at the key: it is the cell there, or the host's answer. -/
theorem stored_withMem {m : Memory w} {s : Engine w} {k : Key} (h : (withMem m s).cell k = s.cell k) :
    stored (withMem m s) k = stored s k := by
  have hstorage : (withMem m s).storage = s.storage := rfl
  rw [stored, stored, hstorage]
  cases s.storage with
  | reference => exact h
  | host tag past => rfl

/-- The operand fetch over cells that agree at the operand: the same value and the same access. -/
theorem opnd_withMem {m : Memory w} {s : Engine w} {f : OFields}
    (h : (withMem m s).cell (operandKey f) = s.cell (operandKey f)) :
    opnd f (withMem m s) = ((opnd f s).1, withMem m (opnd f s).2) := by
  have hanswer : portAnswer (keyOf f) (withMem m s) = portAnswer (keyOf f) s := stored_withMem h
  rw [opnd, opnd, memRead, memRead, hanswer]
  rfl

/-- LD reads the operand alone (R120). -/
theorem load_withMem {m : Memory w} {s : Engine w} {f : OFields}
    (h : (withMem m s).cell (operandKey f) = s.cell (operandKey f)) :
    advance (setAcc (opnd f (withMem m s)).1 (opnd f (withMem m s)).2) =
      withMem m (advance (setAcc (opnd f s).1 (opnd f s).2)) := by
  rw [opnd_withMem h]
  rfl

/-- The template reads the operand alone (R109). -/
theorem twoOperand_withMem (laws : AluLaws) (op : TwoOp) {m : Memory w} {s : Engine w} {f : OFields}
    (h : (withMem m s).cell (operandKey f) = s.cell (operandKey f)) :
    twoOperand laws op f (withMem m s) = withMem m (twoOperand laws op f s) := by
  have hacc : (withMem m s).acc = s.acc := rfl
  simp only [twoOperand, opnd_withMem h, hacc]
  cases f.push with
  | true => rfl
  | false => cases alu laws op s.acc (opnd f s).1 <;> rfl

/-- The close reads the stack and the accumulator alone (R114). -/
theorem closeBracket_withMem (laws : AluLaws) (m : Memory w) (s : Engine w) :
    closeBracket laws (withMem m s) = withMem m (closeBracket laws s) := by
  cases he : s.es with
  | nil =>
    rw [closeBracket_of_empty he]
    exact closeBracket_of_empty he
  | cons fr rest =>
    by_cases hdiv : fr.op = .div ∧ s.acc = 0
    · obtain ⟨hop, hacc⟩ := hdiv
      rw [closeBracket_of_divByZero he hop hacc]
      exact closeBracket_of_divByZero he hop hacc
    · rw [closeBracket_of_frame he hdiv]
      exact closeBracket_of_frame he hdiv

/-- A reserved opcode reads no cell (R45). -/
theorem reserved_withMem (laws : AluLaws) (r : Reserved) (m : Memory w) (s : Engine w) :
    reserved laws r (withMem m s) = withMem m (reserved laws r s) := by
  by_cases hclose : s.closeOpcode = some r
  · rw [reserved_of_close hclose, ← closeBracket_withMem]
    exact reserved_of_close hclose
  · rw [reserved_of_not_close hclose]
    exact reserved_of_not_close hclose

/-- A write on a condition (S, R) decides by the accumulator, and changes the cells and the port alone. -/
theorem condWrite_withMem (c : Bool) (f : OFields) (v : Value w) (m : Memory w) (s : Engine w) :
    ∃ m', (if c then writeOperand f v (withMem m s) else withMem m s) =
      withMem m' (if c then writeOperand f v s else s) := by
  cases c <;> exact ⟨_, rfl⟩

theorem readerOf_of_twoOp {op : TwoOp} {f : OFields} (hop : twoOpOf i = some (op, f)) : readerOf i = some f := by
  cases i <;> simp only [twoOpOf, Option.some.injEq, Prod.mk.injEq, reduceCtorEq] at hop <;>
    (obtain ⟨-, rfl⟩ := hop; rfl)

/-- Over other cells that agree at the operand, where one is read, an instruction does the same to everything but
the cells. -/
theorem exec_withMem {m : Memory p.vw} (hfits : Fits p i s)
    (hagree : ∀ f, readerOf i = some f → (withMem m s).cell (operandKey f) = s.cell (operandKey f)) :
    ∃ t m', exec i ⟨p, s⟩ = .next ⟨p, t⟩ ∧ exec i ⟨p, withMem m s⟩ = .next ⟨p, withMem m' t⟩ := by
  rcases instr_kinds i with ⟨f, rfl⟩ | ⟨f, rfl⟩ | ⟨f, rfl⟩ | ⟨f, rfl⟩ | ⟨f, rfl⟩ | ⟨f, rfl⟩ | ⟨f, rfl⟩ |
    ⟨f, rfl⟩ | ⟨op, f, hop⟩ | ⟨r, f, rfl⟩
  · exact ⟨_, m, rfl, congrArg (fun e => Host.Outcome.next (State.mk p e)) (load_withMem (hagree f rfl))⟩
  · exact ⟨_, _, rfl, rfl⟩
  · obtain ⟨m', hm'⟩ := condWrite_withMem (truth s.acc) f 1 m s
    exact ⟨_, m', rfl, congrArg (fun e => Host.Outcome.next (State.mk p (advance e))) hm'⟩
  · obtain ⟨m', hm'⟩ := condWrite_withMem (truth s.acc) f 0 m s
    exact ⟨_, m', rfl, congrArg (fun e => Host.Outcome.next (State.mk p (advance e))) hm'⟩
  · exact ⟨_, m, rfl, rfl⟩
  · exact ⟨_, m, rfl, rfl⟩
  · exact ⟨_, m, rfl, rfl⟩
  · exact ⟨_, m, rfl, rfl⟩
  · refine ⟨_, m, exec_of_twoOp hop p s (hfits op f hop), ?_⟩
    rw [exec_of_twoOp hop p (withMem m s) (hfits op f hop),
      twoOperand_withMem p.alu op (hagree f (readerOf_of_twoOp hop))]
  · refine ⟨_, m, exec_reservedInstr r f p s, ?_⟩
    rw [exec_reservedInstr, reserved_withMem]

/-- An instruction that does not fit is stuck (U13). -/
theorem exec_of_not_fits (h : ¬ Fits p i s) : exec i ⟨p, s⟩ = .fault .stackFull := by
  rcases exec_cases i p s with ⟨hfits, -⟩ | ⟨-, hstuck⟩
  · exact absurd hfits h
  · exact hstuck

/-! ### The start of a run -/

/-- A new run reads what the run before would have read, from either storage (R58). -/
theorem stored_relaunch (s : Engine p.vw) (prog : List Word) (budget : Option Nat) (accInit : Value p.vw)
    (close : Option Reserved) (k : Key) :
    stored (State.relaunch ⟨p, s⟩ prog budget accInit close).engine k = stored s k := by
  have hstorage : (State.relaunch ⟨p, s⟩ prog budget accInit close).engine.storage = storageAfter s := rfl
  rw [stored, stored, hstorage, storageAfter]
  cases s.storage <;> rfl

/-! ### The statements -/

/-- Settles O46: the listed cells and the accumulator, each kept by all but the named instructions. -/
theorem onlyNamedInstructionsWrite : Obligations.OnlyNamedInstructionsWrite :=
  fun _ _ _ _ h => ⟨fun hi => sameCells_of_mem (mem_of_exec hi h), fun hi hop hclose => acc_of_exec hi hop hclose h⟩

/-- Settles O49: both executions differ in the cells alone, or both are stuck. -/
theorem outcomeDependsOnOneCell : Obligations.OutcomeDependsOnOneCell := by
  intro i p s m hagree
  refine ⟨fun hfits => ?_, fun hfull => ⟨exec_of_not_fits hfull, exec_of_not_fits hfull⟩⟩
  obtain ⟨t, m', ht, hu⟩ := exec_withMem hfits hagree
  exact ⟨t, withMem m' t, ht, hu, rfl, rfl, rfl, rfl, rfl, rfl⟩

/-- Settles O50: the transfer completes at its target, where the next step finds no word. -/
theorem transferOutsideProgramOverrunsNext : Obligations.TransferOutsideProgramOverrunsNext := by
  intro p s f hexec htransfers houtside
  obtain ⟨i, hi, hexecutes⟩ : ∃ i, (i = .jmp f ∨ i = .cal f) ∧ Executes p s i :=
    hexec.elim (fun h => ⟨_, Or.inl rfl, h⟩) fun h => ⟨_, Or.inr rfl, h⟩
  obtain ⟨t, ht, hcompleted, -⟩ := exec_completed_of_transfer hi s
  rw [if_pos htransfers] at hcompleted
  refine ⟨t, (step_of_executes hexecutes).trans ht, hcompleted, fun hbudget => ?_⟩
  obtain ⟨hpc, -, hstatus, hprog, -⟩ := hcompleted
  have hbeyond : t.prog.length ≤ t.pc := by rw [hprog, hpc]; exact houtside
  obtain ⟨u, hu, hstopped, -⟩ := overrunCheckStops p t (hstatus.trans hexecutes.1) hbudget hbeyond
  exact ⟨u, hu, hstopped⟩

/-- Settles O33: the word at `pc` is the one fetched. -/
theorem stepRunsDecodedInstruction : Obligations.StepRunsDecodedInstruction :=
  fun _ _ w hrun hbudget hfetch => step_of_executes ⟨hrun, hbudget, w, hfetch, rfl⟩

/-- Settles O55: a launch starts at 0 with no step counted, over the cells supplied, of which a reset has none. -/
theorem invariantsHoldAtLaunch : Obligations.InvariantsHoldAtLaunch := by
  refine ⟨fun l => ⟨(State.launch l).engine, rfl, Nat.zero_le _, fun _ _ => Nat.zero_le _, id, id⟩, ?_⟩
  exact ⟨State.reset.engine, rfl, reset_mem_wf, fun _ _ => Or.inl rfl, Nat.zero_le _, fun _ _ => Nat.zero_le _⟩

/-- Settles O59: a new run is a launch over the cells and the storage the run before left. -/
theorem memoryOutlivesTheRun : Obligations.MemoryOutlivesTheRun := by
  intro p s prog budget accInit close
  exact ⟨(State.relaunch ⟨p, s⟩ prog budget accInit close).engine, rfl, rfl, rfl, rfl, rfl, rfl, rfl, rfl, rfl,
    stored_relaunch s prog budget accInit close, fun _ => rfl⟩

end Sys2Proof.Machine
end
